-- ==== Sys2Proof/Word.lean ====
section
/-! DEFINITION. The bit vectors the spec itself treats as bits: register values, addresses and
instruction words (R9, R20, R40), bytes (R12) and register numbers (R74). -/

namespace Sys2Proof

/-- A 32-bit vector: a register value, an address or an instruction word (XLEN = ILEN = 32, R6, R9). -/
abbrev Word := BitVec 32

/-- A byte is 8 bits (R12). -/
abbrev Byte := BitVec 8

/-- A 5-bit register number; the value `n` names the register `xn` (R20, R74). -/
abbrev Reg := BitVec 5

end Sys2Proof
end

