-- ==== Sys2Proof/Machine/Flags.lean ====
section
/-! DEFINITION. RV32I has no flags, no condition codes and no predicates (R26): nothing here is state.
What other machines compute into flags is a comparison, whose outcome goes into a register (R102) or
decides a branch (R146). -/

namespace Sys2Proof.Machine

/-- `s(a) < s(b)`: signed less than, two's complement (R102, R9). -/
def lessSigned (a b : Word) : Bool := a.toInt < b.toInt

/-- `u(a) < u(b)`: unsigned less than (R102). -/
def lessUnsigned (a b : Word) : Bool := a.toNat < b.toNat

/-- The value of a set-less-than instruction: 1 when the comparison holds, else 0 (R102, D25). -/
def flagWord (holds : Bool) : Word := if holds then 1#32 else 0#32

end Sys2Proof.Machine
end

