-- ==== Sys2Proof/Config.lean ====
section
/-! DEFINITION. The parameters of R6 that a step of the hart reads, as plain data, and the one free
value of the model, what an I/O device answers. -/

namespace Sys2Proof

/-- MEM_ENDIAN: the byte order of explicit accesses (R6, R47). -/
inductive Endian where
  /-- The least significant byte lies at the lowest address; the decided value (D3). -/
  | little
  /-- The most significant byte lies at the lowest address. -/
  | big
  deriving DecidableEq, Repr

/-- MISALIGNED_DATA: a load or store at an address that is not a multiple of its size (R6, R50). -/
inductive MisalignedData where
  /-- It raises the misaligned exception; the decided value (D4). -/
  | trap
  /-- It is performed on the bytes of R45. -/
  | support
  deriving DecidableEq, Repr

/-- FETCH_AFTER_STORE: a fetch of bytes this hart has stored to since the start (R6, R61). -/
inductive FetchAfterStore where
  /-- The step is refused; the decided value (D9). -/
  | refuse
  /-- The fetch sees the stored bytes. -/
  | coherent
  deriving DecidableEq, Repr

/-- What an address range holds (R41). -/
inductive RangeKind where
  | vacant
  | main
  | io
  deriving DecidableEq, Repr

/-- The kinds of access that MemMap permits one by one (R44). -/
inductive AccessKind where
  /-- The implicit read of an instruction. -/
  | fetch
  /-- An explicit read. -/
  | load
  /-- An explicit write. -/
  | store
  deriving DecidableEq, Repr

/-- One range of the address map: `size` bytes from `base` on, round the end of the circular space
if need be (R40), what they hold and which accesses may reach them (R41, R44). -/
structure Region where
  base : Word
  size : Nat
  kind : RangeKind
  fetch : Bool
  load : Bool
  store : Bool
  deriving DecidableEq, Repr

/-- MemMap (R6, R41, R44): the first region that holds an address speaks for it; an address in no
region is vacant. Log 19 (DESIGN CHOICE: how the map is written down). -/
abbrev MemMap := List Region

/-- The parameters of R6 that a step reads; they are constant over a run. Log 3. -/
structure Config where
  endian : Endian
  misaligned : MisalignedData
  fetchAfterStore : FetchAfterStore
  memMap : MemMap
  deriving DecidableEq, Repr

/-- "All 2^32 bytes are main memory, accessible for fetch, load and store": the map of the spec's
test vectors. MemMap is an open parameter (D5). DESIGN CHOICE, unsafe: log 4. -/
def MemMap.allMain : MemMap :=
  [{ base := 0, size := 2 ^ 32, kind := .main, fetch := true, load := true, store := true }]

/-- The decided parameters of R6 (D3, D4, D9), with the test vectors' map for the open one. -/
def Config.decided : Config :=
  { endian := .little, misaligned := .trap, fetchAfterStore := .refuse, memMap := MemMap.allMain }

/-- One access that reached an I/O range, as the device sees it (R54, R58 item 3). -/
inductive IoEvent where
  /-- An instruction fetch of the four bytes at `addr`. -/
  | fetch (addr : Word)
  /-- A load of `size` bytes at `addr`. -/
  | load (addr : Word) (size : Nat)
  /-- A store of the low `size` bytes of `value` at `addr`; `value` is in register order under both
  byte orders. DESIGN CHOICE: log 23. -/
  | store (addr : Word) (size : Nat) (value : Word)
  deriving DecidableEq, Repr

/-- FREE VALUE (DESIGN CHOICE, safe: log 9). The IoDevice parameter, open in the spec (R6, R54, D5):
what the devices answer to the last access of the list, when these are all the accesses that have
reached them since the start, oldest first. Bits 8k+7..8k answer for the byte at the access's address
plus k. It has no body: nothing can be proved of its value, and a claim holds for every device. -/
opaque Config.ioReply : List IoEvent → Word

end Sys2Proof
end

