-- ==== Sys2Proof/Machine/State.lean ====
section
/-! DEFINITION. The state of the machine, how a step can stop, and the state at the start. -/

namespace Sys2Proof.Machine

/-! ## Traps -/

/-- The nine exceptions of R211; the cause of a trap is one of these names, not a number (R221, D23). -/
inductive Cause where
  | instructionAddressMisaligned
  | instructionAccessFault
  | illegalInstruction
  | breakpoint
  | loadAddressMisaligned
  | loadAccessFault
  | storeAddressMisaligned
  | storeAccessFault
  | environmentCall
  deriving DecidableEq, Repr

/-- The trap record the execution environment receives (R222): the exception, the address of the
instruction that raised it, and the value R211 says is recorded. -/
structure TrapRecord where
  cause : Cause
  pc : Word
  value : Word
  deriving DecidableEq, Repr

/-- Why a step stops with a fault. -/
inductive Fault where
  /-- Raised by a step, never by an instruction's meaning, in a state whose trap no EE reply answers:
  the hart has stopped and the run is over, with this record as its result (R222 item 2, R252,
  EEHandler = `terminate`). Safe: the spec gives no further step. Log 2. -/
  | runEnded (record : TrapRecord)
  deriving DecidableEq, Repr

/-- Why a step has no meaning. -/
inductive Refusal where
  /-- Raised by the dispatch arm of an instruction that has no meaning yet. Safe. -/
  | notModelled (mnemonic : String)
  /-- Raised by a step that would fetch bytes this hart has stored to since the start, under
  FETCH_AFTER_STORE = `refuse` (R61, R234 step 2, D9). Safe: it errs toward unprovable. Log 11. -/
  | fetchAfterStore
  deriving DecidableEq, Repr

/-! ## Memory -/

/-- The contents of memory: the bytes that differ from `Memory.unlisted`, by address. -/
abbrev Memory := List Host.Cell

/-- What an address that memory does not list reads as. InitMem is an open parameter of the spec
(R31); DESIGN CHOICE, unsafe: log 7. -/
def Memory.unlisted : Byte := 0#8

/-- The one canonical form: addresses strictly rising and below 2^32 (R40), and no entry equal to
what an unlisted address reads as. Equal memories are then equal lists. -/
abbrev Memory.wf (m : Memory) : Prop :=
  m.Pairwise (fun c d => c.1 < d.1) ∧ ∀ c ∈ m, c.1 < 2 ^ 32 ∧ c.2 ≠ Memory.unlisted

/-! ## The state -/

/-- A triple `(x, pc, Mem)` that the execution environment gives the hart: at the start (InitRegs,
RESET_PC, InitMem; R31, R250) or when it resumes the hart after a trap (R223). `regs` holds x1 to
x31; the pc is a multiple of 4, `4 * pcIndex` (R31, R223). -/
structure HartImage where
  regs : Vector Word 31
  pcIndex : BitVec 30
  mem : Memory
  deriving DecidableEq, Repr

/-- The pc of an image: a multiple of 4 (R31, R223). -/
def HartImage.pc (image : HartImage) : Word := image.pcIndex ++ 0b00#2

/-- The machine. `regs`, `pc` and `mem` are the hardware's state (R32); `written` is the spec's
bookkeeping set (R32, R61), as a strictly rising list; `trap` is the record handed over at a trap, and
while it is there the hart has stopped (R222). The last three are the model's own: `io` is what has
reached I/O ranges (R58 item 3; log 9), `ee` what the EE will answer to the traps to come (EEHandler of
R6; log 2), `cfg` the other parameters of R6 (log 3). -/
structure State where
  regs : Vector Word 31
  pc : Word
  mem : Memory
  written : List Nat
  trap : Option TrapRecord
  io : List IoEvent
  ee : List HartImage
  cfg : Config
  deriving DecidableEq, Repr

/-- The start of execution (R31, R250): the parameters InitRegs, RESET_PC and InitMem (the image),
EEHandler and the rest, each given; Written is empty and nothing has happened. -/
def State.start (image : HartImage) (ee : List HartImage) (cfg : Config) : State :=
  { regs := image.regs, pc := image.pc, mem := image.mem, written := [], trap := none,
    io := [], ee := ee, cfg := cfg }

/-- The start values the model names where the spec leaves the parameters open (R31, D21): InitRegs 0
(log 6), RESET_PC 0x00001000 (log 5), InitMem with nothing listed (log 7). DESIGN CHOICE, unsafe. -/
def HartImage.atReset : HartImage :=
  { regs := Vector.replicate 31 0#32, pcIndex := 0x400#30, mem := [] }

/-- The machine at the start, under the decided parameters (R6): EEHandler is `terminate`. -/
def State.reset : State := State.start HartImage.atReset [] Config.decided

end Sys2Proof.Machine
end

