-- ==== Sys2Proof/Machine/Ops.lean ====
section
/-! DEFINITION. The operations that every meaning is written with: registers, the pc, memory, taking a
trap and the return from one, reading and writing memory, fetching. -/

namespace Sys2Proof.Machine

/-- How a step of the machine comes out. -/
abbrev Result := Host.Outcome State Fault Refusal

/-! ## Updates of the state -/

/-- Set the pc. -/
def State.setPc (s : State) (t : Word) : State := { s with pc := t }

/-- Record a trap. -/
def State.setTrap (s : State) (r : Option TrapRecord) : State := { s with trap := r }

/-- Replace the log of I/O accesses. -/
def State.setIo (s : State) (log : List IoEvent) : State := { s with io := log }

/-- Replace memory and the set of stored-to addresses, which only a store changes (R32). -/
def State.setStored (s : State) (m : Memory) (w : List Nat) : State :=
  { s with mem := m, written := w }

/-- The place of `xr` in `regs`; it means nothing for x0. -/
def regIndex (r : Reg) : Fin 31 := ⟨r.toNat - 1, by have := r.isLt; omega⟩

/-- Read of an integer register; `x0` always reads 0 (R21). -/
def State.x (s : State) (r : Reg) : Word := if r = 0#5 then 0#32 else s.regs[regIndex r]

/-- Write of an integer register; a write to `x0` is discarded (R21). -/
def State.setX (s : State) (r : Reg) (v : Word) : State :=
  { s with regs := if r = 0#5 then s.regs else s.regs.set (regIndex r) v }

/-- The address of the instruction after this one, modulo 2^32 (R24). -/
def State.nextPc (s : State) : Word := s.pc + 4#32

/-- Complete an instruction that is not a taken transfer: `pc <- pc + 4` (R24). -/
def advance (s : State) : Result := .next (s.setPc s.nextPc)

/-- Complete an instruction that writes one register: `x[rd] <- v; pc <- pc + 4` (R100). -/
def writeReg (rd : Reg) (v : Word) (s : State) : Result := advance (s.setX rd v)

/-! ## Traps (R222, R223) -/

/-- Trap entry (R222): the instruction changes no register, no byte of memory and not the pc; the
execution environment gets the record, and the hart has stopped. Log 1. -/
def takeTrap (c : Cause) (value : Word) (s : State) : Result :=
  .next (s.setTrap (some { cause := c, pc := s.pc, value := value }))

/-- What follows a trap (R223), the EE's step: with no reply left EEHandler is `terminate` and the
run is over (R252); otherwise the EE resumes the hart in the state it chose. Log 2, log 20. It may
resume after a trap of any cause, a fatal one included: R223 and D16 bind resuming to no cause, though
R220 says of a fatal trap that the EE terminates execution. DESIGN CHOICE: log 24. -/
def afterTrap (record : TrapRecord) (s : State) : Result :=
  match s.ee with
  | [] => .fault (.runEnded record)
  | image :: rest =>
    .next { s with regs := image.regs, pc := image.pc, mem := image.mem, trap := none, ee := rest }

/-- The four effects a trap can have (R220). -/
inductive TrapKind where
  | contained
  | requested
  | invisible
  | fatal
  deriving DecidableEq, Repr

/-- ECALL and EBREAK are requested traps, every other exception is fatal (R220, D16). -/
def trapKind : Cause → TrapKind
  | .environmentCall => .requested
  | .breakpoint => .requested
  | .instructionAddressMisaligned => .fatal
  | .instructionAccessFault => .fatal
  | .illegalInstruction => .fatal
  | .loadAddressMisaligned => .fatal
  | .loadAccessFault => .fatal
  | .storeAddressMisaligned => .fatal
  | .storeAccessFault => .fatal

/-- The numbers other RISC-V documents give the causes; informational, no rule uses them (R211, R221). -/
def causeCodes : Cause → List Nat
  | .instructionAddressMisaligned => [0]
  | .instructionAccessFault => [1]
  | .illegalInstruction => [2]
  | .breakpoint => [3]
  | .loadAddressMisaligned => [4]
  | .loadAccessFault => [5]
  | .storeAddressMisaligned => [6]
  | .storeAccessFault => [7]
  | .environmentCall => [8, 11]

/-! ## The bytes of memory (R29, R47) -/

/-- The byte at an address: the first entry for it, else what an unlisted address reads as. -/
def Memory.read : Memory → Nat → Byte
  | [], _ => Memory.unlisted
  | c :: rest, a => if c.1 = a then c.2 else Memory.read rest a

/-- Put an entry before the first one with a higher address. -/
def Memory.insert : Memory → Nat → Byte → Memory
  | [], a, b => [(a, b)]
  | c :: rest, a, b => if a < c.1 then (a, b) :: c :: rest else c :: Memory.insert rest a b

/-- Write one byte; a byte equal to what an unlisted address reads as is not listed. -/
def Memory.write (m : Memory) (a : Nat) (b : Byte) : Memory :=
  let others := m.filter (fun c => c.1 ≠ a)
  if b = Memory.unlisted then others else Memory.insert others a b

/-- Add an address to a strictly rising list of addresses. -/
def addAddress : List Nat → Nat → List Nat
  | [], a => [a]
  | w :: rest, a =>
    if a < w then a :: w :: rest else if a = w then w :: rest else w :: addAddress rest a

/-! ## The address map (R41, R44) -/

/-- Does the region hold the address? The space is circular (R40). -/
def Region.holds (r : Region) (a : Word) : Bool := (a - r.base).toNat < r.size

/-- What the map says of an address: the first region that holds it. -/
def regionAt (map : MemMap) (a : Word) : Option Region := map.find? (fun r => Region.holds r a)

/-- What lies at an address; an address in no region is vacant (R41). -/
def kindAt (map : MemMap) (a : Word) : RangeKind :=
  match regionAt map a with
  | some r => r.kind
  | none => .vacant

/-- A region's permission for a kind of access (R44). -/
def Region.permits (r : Region) : AccessKind → Bool
  | .fetch => r.fetch
  | .load => r.load
  | .store => r.store

/-- May this kind of access reach the address? Vacant locations are never accessible (R44). -/
def accessibleAt (map : MemMap) (k : AccessKind) (a : Word) : Bool :=
  match regionAt map a with
  | some r => decide (r.kind ≠ .vacant) && Region.permits r k
  | none => false

/-- The `n` addresses an access of `n` bytes at `a` touches, each modulo 2^32 (R45). -/
def span (a : Word) (n : Nat) : List Word := (List.range n).map (fun k => a + BitVec.ofNat 32 k)

/-- May this kind of access reach every one of its bytes? (R52) -/
def accessible (map : MemMap) (k : AccessKind) (a : Word) (n : Nat) : Bool :=
  (span a n).all (accessibleAt map k)

/-- Does the access touch an I/O range? (R41) -/
def touchesIo (map : MemMap) (a : Word) (n : Nat) : Bool :=
  (span a n).any (fun p => decide (kindAt map p = .io))

/-- Is a data access one that the misaligned exception is for? Never under `support` (R50). -/
def misalignedData (cfg : Config) (a : Word) (n : Nat) : Bool :=
  decide (cfg.misaligned = .trap) && decide (a.toNat % n ≠ 0)

/-! ## Byte order (R47, R48) -/

/-- The 32-bit value whose byte `k`, counted from the least significant, is the list's byte `k`. -/
def joinBytes : List Byte → Word
  | [] => 0#32
  | b :: rest => (joinBytes rest <<< 8) ||| b.setWidth 32

/-- The `n` low bytes of a value, the least significant first. -/
def splitBytes : Nat → Word → List Byte
  | 0, _ => []
  | n + 1, v => v.setWidth 8 :: splitBytes n (v >>> 8)

/-- Bytes in order of significance against bytes in order of address: the same under `little`, turned
round under `big` (R47). It is its own inverse. -/
def inMemoryOrder (e : Endian) (bytes : List Byte) : List Byte :=
  match e with
  | .little => bytes
  | .big => bytes.reverse

/-! ## Accesses (R47 to R52, R54, R58) -/

/-- The log after an access: an access that touches an I/O range reaches the device, in program order
and once (R58 item 3). Log 10. -/
def ioAfter (s : State) (event : IoEvent) (a : Word) (n : Nat) : List IoEvent :=
  if touchesIo s.cfg.memMap a n then s.io ++ [event] else s.io

/-- The byte number `k` of a read at `a`: what the device answers where the address is I/O (R54), what
memory holds elsewhere (R58 item 1). -/
def byteRead (s : State) (reply : Word) (a : Word) (k : Nat) : Byte :=
  let p := a + BitVec.ofNat 32 k
  if kindAt s.cfg.memMap p = .io then reply.extractLsb' (8 * k) 8 else s.mem.read p.toNat

/-- The `n` bytes of a read at `a`, lowest address first, when `log` are the I/O accesses so far. -/
def bytesRead (s : State) (log : List IoEvent) (a : Word) (n : Nat) : List Byte :=
  (List.range n).map (byteRead s (Config.ioReply log) a)

/-- `MemRead(a, n)` (R47), with the checks of R50 and R52 first, in the order of R169: the value read,
above it zeros to 32 bits, and the state after; or the exception, whose recorded value is `a`. -/
def memRead (n : Nat) (a : Word) (s : State) : Except Cause (Word × State) :=
  if misalignedData s.cfg a n then .error .loadAddressMisaligned
  else if accessible s.cfg.memMap .load a n then
    let log := ioAfter s (.load a n) a n
    .ok (joinBytes (inMemoryOrder s.cfg.endian (bytesRead s log a n)), s.setIo log)
  else .error .loadAccessFault

/-- Write bytes from the address `a` on, each to memory unless the address is I/O (R29, R47). -/
def writeBytes (map : MemMap) : Word → List Byte → Memory → Memory
  | _, [], m => m
  | a, b :: rest, m =>
    writeBytes map (a + 1#32) rest (if kindAt map a = .io then m else m.write a.toNat b)

/-- Add every address of an access to Written (R32). -/
def addSpan (a : Word) (n : Nat) (w : List Nat) : List Nat :=
  (span a n).foldl (fun acc p => addAddress acc p.toNat) w

/-- `MemWrite(a, n, v)` (R47) of the `n` low bytes of `v`, with the checks of R50 and R52 first, in the
order of R169; every address written joins Written (R32). A device sees the stored value in register
order, under `big` as under `little`, whereas a device's answer to a load is in address order; the spec
leaves both to IoDevice (R54). DESIGN CHOICE: log 23. -/
def memWrite (n : Nat) (a : Word) (v : Word) (s : State) : Except Cause State :=
  if misalignedData s.cfg a n then .error .storeAddressMisaligned
  else if accessible s.cfg.memMap .store a n then
    let bytes := inMemoryOrder s.cfg.endian (splitBytes n v)
    .ok ((s.setStored (writeBytes s.cfg.memMap a bytes s.mem) (addSpan a n s.written)).setIo
      (ioAfter s (.store a n (joinBytes (splitBytes n v))) a n))
  else .error .storeAccessFault

/-- What an attempt to fetch at the pc gives. -/
inductive Fetched where
  /-- The fetch raises InstructionAccessFault. -/
  | denied
  /-- The bytes have been stored to and the model refuses. -/
  | stale
  /-- The word, and the state after the implicit read. -/
  | word (w : Word) (s : State)
  deriving DecidableEq, Repr

/-- Has this hart stored to one of the four bytes at the address? (R61) -/
def storedTo (s : State) (a : Word) : Bool :=
  (span a 4).any (fun p => s.written.contains p.toNat)

/-- `Fetch(pc)` (R48), little-endian in every configuration, with the checks of R234 steps 1 and 2. -/
def fetch (s : State) : Fetched :=
  if accessible s.cfg.memMap .fetch s.pc 4 then
    if decide (s.cfg.fetchAfterStore = .refuse) && storedTo s s.pc then .stale
    else
      let log := ioAfter s (.fetch s.pc) s.pc 4
      .word (joinBytes (bytesRead s log s.pc 4)) (s.setIo log)
  else .denied

end Sys2Proof.Machine
end

