-- ==== Sys2Proof/Machine/Operands.lean ====
section
/-! DEFINITION. The operand forms: immediates at 32 bits, shift amounts, effective addresses and
transfer targets. -/

namespace Sys2Proof.Machine

/-- The I- or S-immediate at 32 bits, sign-extended (R76, R77, R81). -/
def imm12 (imm : BitVec 12) : Word := imm.signExtend 32

/-- The B-immediate at 32 bits, sign-extended (R78, R81). -/
def imm13 (imm : BitVec 13) : Word := imm.signExtend 32

/-- The J-immediate at 32 bits, sign-extended (R80, R81). -/
def imm21 (imm : BitVec 21) : Word := imm.signExtend 32

/-- The U-immediate: the 20 bits above twelve zero bits (R79). -/
def immUpper (imm : BitVec 20) : Word := imm ++ 0#12

/-- The shift amount of a register form: the low five bits of the register (R103, D13). -/
def shiftAmount (v : Word) : Nat := (v.extractLsb' 0 5).toNat

/-- The effective address of a load or store: base plus immediate, modulo 2^32 (R160, R45). -/
def effectiveAddress (rs1 : Reg) (imm : BitVec 12) (s : State) : Word := s.x rs1 + imm12 imm

/-- The target of a branch (R146). -/
def branchTarget (imm : BitVec 13) (s : State) : Word := s.pc + imm13 imm

/-- The target of JAL (R141). -/
def jalTarget (imm : BitVec 21) (s : State) : Word := s.pc + imm21 imm

/-- The target of JALR: the sum with bit 0 forced to 0 (R143, D12). -/
def jalrTarget (rs1 : Reg) (imm : BitVec 12) (s : State) : Word :=
  (s.x rs1 + imm12 imm) &&& 0xFFFFFFFE#32

/-- Is the target a multiple of 4, as a taken transfer needs? (R140, IALIGN = 32) -/
def targetAligned (t : Word) : Bool := t.extractLsb' 0 2 == 0b00#2

end Sys2Proof.Machine
end

