-- ==== Sys2Proof/Machine/ControlTransfer.lean ====
section
/-! DEFINITION. The jumps and branches (R140 to R152), and the return-address hint of a jump (R145). -/

namespace Sys2Proof.Machine

/-- A taken transfer to `t` (R140): a target that is not a multiple of 4 raises the misaligned exception
on the transfer itself, before every write; otherwise `after`, which holds the transfer's register
write if it has one, continues at `t`. -/
def transfer (t : Word) (after s : State) : Result :=
  if targetAligned t then .next (after.setPc t) else takeTrap .instructionAddressMisaligned t s

/-- JAL (R141). -/
def execJal (rd : Reg) (imm : BitVec 21) (s : State) : Result :=
  transfer (jalTarget imm s) (s.setX rd s.nextPc) s

/-- JALR (R143): the target is computed from the old value of `x[rs1]`. -/
def execJalr (rd rs1 : Reg) (imm : BitVec 12) (s : State) : Result :=
  transfer (jalrTarget rs1 imm s) (s.setX rd s.nextPc) s

/-- What the six branches share (R146); a branch that is not taken never raises the exception. -/
def branch (taken : Bool) (imm : BitVec 13) (s : State) : Result :=
  if taken then transfer (branchTarget imm s) s s else advance s

/-- BEQ (R147). -/
def execBeq (rs1 rs2 : Reg) (imm : BitVec 13) (s : State) : Result :=
  branch (s.x rs1 == s.x rs2) imm s

/-- BNE (R148). -/
def execBne (rs1 rs2 : Reg) (imm : BitVec 13) (s : State) : Result :=
  branch (s.x rs1 != s.x rs2) imm s

/-- BLT (R149). -/
def execBlt (rs1 rs2 : Reg) (imm : BitVec 13) (s : State) : Result :=
  branch (lessSigned (s.x rs1) (s.x rs2)) imm s

/-- BGE (R151): the negation of BLT's condition. -/
def execBge (rs1 rs2 : Reg) (imm : BitVec 13) (s : State) : Result :=
  branch (!lessSigned (s.x rs1) (s.x rs2)) imm s

/-- BLTU (R150). -/
def execBltu (rs1 rs2 : Reg) (imm : BitVec 13) (s : State) : Result :=
  branch (lessUnsigned (s.x rs1) (s.x rs2)) imm s

/-- BGEU (R152): the negation of BLTU's condition. -/
def execBgeu (rs1 rs2 : Reg) (imm : BitVec 13) (s : State) : Result :=
  branch (!lessUnsigned (s.x rs1) (s.x rs2)) imm s

/-! ## Return-address prediction hints (R145)

The hint has no architectural effect and the return-address stack is no state (R30): no meaning reads
these two functions. They record which hint a jump's register numbers encode. -/

/-- What a jump suggests to the return-address stack. -/
inductive RasAction where
  | none
  | pop
  | push
  | popThenPush
  deriving DecidableEq, Repr

/-- "link is true when the register is either x1 or x5". -/
def isLink (r : Reg) : Bool := r == 1#5 || r == 5#5

/-- The table of R145 for JALR. -/
def rasJalr (rd rs1 : Reg) : RasAction :=
  match isLink rd, isLink rs1 with
  | false, false => .none
  | false, true => .pop
  | true, false => .push
  | true, true => if rs1 = rd then .push else .popThenPush

/-- JAL: only the `rd` column applies (R145). -/
def rasJal (rd : Reg) : RasAction := if isLink rd then .push else .none

end Sys2Proof.Machine
end

