-- ==== Sys2Proof/Machine/LoadStore.lean ====
section
/-! DEFINITION. The loads and stores (R160 to R170). -/

namespace Sys2Proof.Machine

/-- What the five loads share: `n` bytes at the effective address, extended to 32 bits by `extend`, go to
`x[rd]`; a load that raises writes nothing, and its recorded value is the effective address (R160, R169,
R215, R216). With `rd = x0` the access is still made (R170). -/
def load (n : Nat) (extend : Word → Word) (rd rs1 : Reg) (imm : BitVec 12) (s : State) : Result :=
  match memRead n (effectiveAddress rs1 imm s) s with
  | .ok (v, s') => writeReg rd (extend v) s'
  | .error c => takeTrap c (effectiveAddress rs1 imm s) s

/-- What the three stores share: the `n` low bytes of `x[rs2]` go to the effective address; a store
that raises writes nothing (R160, R169, R215, R216). -/
def store (n : Nat) (rs2 rs1 : Reg) (imm : BitVec 12) (s : State) : Result :=
  match memWrite n (effectiveAddress rs1 imm s) (s.x rs2) s with
  | .ok s' => advance s'
  | .error c => takeTrap c (effectiveAddress rs1 imm s) s

/-- LW (R161). -/
def execLw (rd rs1 : Reg) (imm : BitVec 12) (s : State) : Result :=
  load 4 (fun v => v) rd rs1 imm s

/-- LH (R162): bit 15 is copied into bits 31..16. -/
def execLh (rd rs1 : Reg) (imm : BitVec 12) (s : State) : Result :=
  load 2 (fun v => (v.setWidth 16).signExtend 32) rd rs1 imm s

/-- LHU (R163): bits 31..16 are 0. -/
def execLhu (rd rs1 : Reg) (imm : BitVec 12) (s : State) : Result :=
  load 2 (fun v => (v.setWidth 16).setWidth 32) rd rs1 imm s

/-- LB (R164): bit 7 is copied into bits 31..8. -/
def execLb (rd rs1 : Reg) (imm : BitVec 12) (s : State) : Result :=
  load 1 (fun v => (v.setWidth 8).signExtend 32) rd rs1 imm s

/-- LBU (R165): bits 31..8 are 0. -/
def execLbu (rd rs1 : Reg) (imm : BitVec 12) (s : State) : Result :=
  load 1 (fun v => (v.setWidth 8).setWidth 32) rd rs1 imm s

/-- SW (R166). -/
def execSw (rs2 rs1 : Reg) (imm : BitVec 12) (s : State) : Result := store 4 rs2 rs1 imm s

/-- SH (R167): bits 31..16 of `x[rs2]` are ignored. -/
def execSh (rs2 rs1 : Reg) (imm : BitVec 12) (s : State) : Result := store 2 rs2 rs1 imm s

/-- SB (R168): bits 31..8 of `x[rs2]` are ignored. -/
def execSb (rs2 rs1 : Reg) (imm : BitVec 12) (s : State) : Result := store 1 rs2 rs1 imm s

end Sys2Proof.Machine
end

