-- ==== Sys2Proof/Machine/MemoryOrdering.lean ====
section
/-! DEFINITION. FENCE and FENCE.TSO (R180 to R184). The hart is the only observer and makes its accesses
in program order (R58), so a fence orders nothing a program can see: it advances the pc (R184). Its
fields stay operands, because a model with more harts would attach the ordering of R180 and R182 to
them. Log 16. -/

namespace Sys2Proof.Machine

/-- FENCE (R180, R183, R184): `fm`, `rs1` and `rd` are ignored, and nothing observes `pred`, `succ`. -/
def execFence (_fm _pred _succ : BitVec 4) (_rs1 _rd : Reg) (s : State) : Result := advance s

/-- FENCE.TSO (R182, R184). -/
def execFenceTso (_rs1 _rd : Reg) (s : State) : Result := advance s

end Sys2Proof.Machine
end

