-- ==== Sys2Proof/Machine/RegisterImmediate.lean ====
section
/-! DEFINITION. The register-immediate instructions (R104 to R114). Each writes `x[rd]` and advances
the pc; none raises an exception (R100). -/

namespace Sys2Proof.Machine

/-- ADDI (R104): the sum modulo 2^32. -/
def execAddi (rd rs1 : Reg) (imm : BitVec 12) (s : State) : Result :=
  writeReg rd (s.x rs1 + imm12 imm) s

/-- SLTI (R105): the signed comparison with the sign-extended immediate. -/
def execSlti (rd rs1 : Reg) (imm : BitVec 12) (s : State) : Result :=
  writeReg rd (flagWord (lessSigned (s.x rs1) (imm12 imm))) s

/-- SLTIU (R106): the immediate is sign-extended first, then both are read as unsigned. -/
def execSltiu (rd rs1 : Reg) (imm : BitVec 12) (s : State) : Result :=
  writeReg rd (flagWord (lessUnsigned (s.x rs1) (imm12 imm))) s

/-- XORI (R109). -/
def execXori (rd rs1 : Reg) (imm : BitVec 12) (s : State) : Result :=
  writeReg rd (s.x rs1 ^^^ imm12 imm) s

/-- ORI (R108). -/
def execOri (rd rs1 : Reg) (imm : BitVec 12) (s : State) : Result :=
  writeReg rd (s.x rs1 ||| imm12 imm) s

/-- ANDI (R107). -/
def execAndi (rd rs1 : Reg) (imm : BitVec 12) (s : State) : Result :=
  writeReg rd (s.x rs1 &&& imm12 imm) s

/-- SLLI (R110): zeros enter at bit 0. -/
def execSlli (rd rs1 : Reg) (shamt : BitVec 5) (s : State) : Result :=
  writeReg rd (s.x rs1 <<< shamt.toNat) s

/-- SRLI (R111): zeros enter at bit 31. -/
def execSrli (rd rs1 : Reg) (shamt : BitVec 5) (s : State) : Result :=
  writeReg rd (s.x rs1 >>> shamt.toNat) s

/-- SRAI (R112): copies of the old bit 31 enter at bit 31. -/
def execSrai (rd rs1 : Reg) (shamt : BitVec 5) (s : State) : Result :=
  writeReg rd ((s.x rs1).sshiftRight shamt.toNat) s

/-- LUI (R113). -/
def execLui (rd : Reg) (imm : BitVec 20) (s : State) : Result :=
  writeReg rd (immUpper imm) s

/-- AUIPC (R114): the pc is the address of this AUIPC. -/
def execAuipc (rd : Reg) (imm : BitVec 20) (s : State) : Result :=
  writeReg rd (s.pc + immUpper imm) s

end Sys2Proof.Machine
end

