-- ==== Sys2Proof/Machine/RegisterRegister.lean ====
section
/-! DEFINITION. The register-register instructions (R115 to R124). Each writes `x[rd]` and advances the
pc; none raises an exception (R100). -/

namespace Sys2Proof.Machine

/-- ADD (R115): modulo 2^32. -/
def execAdd (rd rs1 rs2 : Reg) (s : State) : Result :=
  writeReg rd (s.x rs1 + s.x rs2) s

/-- SUB (R123): modulo 2^32. -/
def execSub (rd rs1 rs2 : Reg) (s : State) : Result :=
  writeReg rd (s.x rs1 - s.x rs2) s

/-- SLL (R121): only the low five bits of `x[rs2]` count. -/
def execSll (rd rs1 rs2 : Reg) (s : State) : Result :=
  writeReg rd (s.x rs1 <<< shiftAmount (s.x rs2)) s

/-- SLT (R116). -/
def execSlt (rd rs1 rs2 : Reg) (s : State) : Result :=
  writeReg rd (flagWord (lessSigned (s.x rs1) (s.x rs2))) s

/-- SLTU (R117). -/
def execSltu (rd rs1 rs2 : Reg) (s : State) : Result :=
  writeReg rd (flagWord (lessUnsigned (s.x rs1) (s.x rs2))) s

/-- XOR (R120). -/
def execXor (rd rs1 rs2 : Reg) (s : State) : Result :=
  writeReg rd (s.x rs1 ^^^ s.x rs2) s

/-- SRL (R122): only the low five bits of `x[rs2]` count. -/
def execSrl (rd rs1 rs2 : Reg) (s : State) : Result :=
  writeReg rd (s.x rs1 >>> shiftAmount (s.x rs2)) s

/-- SRA (R124): only the low five bits of `x[rs2]` count. -/
def execSra (rd rs1 rs2 : Reg) (s : State) : Result :=
  writeReg rd ((s.x rs1).sshiftRight (shiftAmount (s.x rs2))) s

/-- OR (R119). -/
def execOr (rd rs1 rs2 : Reg) (s : State) : Result :=
  writeReg rd (s.x rs1 ||| s.x rs2) s

/-- AND (R118). -/
def execAnd (rd rs1 rs2 : Reg) (s : State) : Result :=
  writeReg rd (s.x rs1 &&& s.x rs2) s

end Sys2Proof.Machine
end

