-- ==== Sys2Proof/Machine/System.lean ====
section
/-! DEFINITION. ECALL and EBREAK (R190 to R192): each always raises its exception. -/

namespace Sys2Proof.Machine

/-- ECALL (R190): the record carries no further value, 0 (R211). -/
def execEcall (s : State) : Result := takeTrap .environmentCall 0#32 s

/-- EBREAK (R191): the recorded value is the pc of the EBREAK (R211). -/
def execEbreak (s : State) : Result := takeTrap .breakpoint s.pc s

end Sys2Proof.Machine
end

