-- ==== Sys2Proof/WellFormed.lean ====
section
/-! DEFINITION. Which terms of `Instr` are instructions: those whose operands some encoding has. -/

namespace Sys2Proof

/-- The field pattern that makes a FENCE word FENCE.TSO: `fm = 1000`, `pred = succ = 0011` (R182). -/
def isTsoPattern (fm pred succ : BitVec 4) : Bool :=
  fm == 0b1000#4 && pred == 0b0011#4 && succ == 0b0011#4

/-- An instruction is well formed when its branch or JAL offset is even (bit 0 of the B- and
J-immediate is always 0, R78, R80) and when it is not a plain FENCE with the fields of FENCE.TSO
(such a word is FENCE.TSO, R87 step 3, R183). Every other operand may take every value of its field. -/
def WellFormed : Instr → Bool
  | .beq _ _ imm | .bne _ _ imm | .blt _ _ imm | .bge _ _ imm | .bltu _ _ imm | .bgeu _ _ imm =>
    !imm.getLsbD 0
  | .jal _ imm => !imm.getLsbD 0
  | .fence fm pred succ _ _ => !isTsoPattern fm pred succ
  | .lui _ _ | .auipc _ _ | .jalr _ _ _ => true
  | .lb _ _ _ | .lh _ _ _ | .lw _ _ _ | .lbu _ _ _ | .lhu _ _ _ => true
  | .sb _ _ _ | .sh _ _ _ | .sw _ _ _ => true
  | .addi _ _ _ | .slti _ _ _ | .sltiu _ _ _ | .xori _ _ _ | .ori _ _ _ | .andi _ _ _ => true
  | .slli _ _ _ | .srli _ _ _ | .srai _ _ _ => true
  | .add _ _ _ | .sub _ _ _ | .sll _ _ _ | .slt _ _ _ | .sltu _ _ _ => true
  | .xor _ _ _ | .srl _ _ _ | .sra _ _ _ | .or _ _ _ | .and _ _ _ => true
  | .fenceTso _ _ | .ecall | .ebreak => true

end Sys2Proof
end

