-- ==== Sys2Proof/Decode.lean ====
section
/-! DEFINITION. The decoder (R74 to R88) and the encoder (R95). -/

namespace Sys2Proof

/-! ## Fields of an instruction word (R74, R75) -/

/-- `rd`, `inst[11:7]` (R74). -/
def rdField (w : Word) : Reg := w.extractLsb' 7 5

/-- `rs1`, `inst[19:15]` (R74). -/
def rs1Field (w : Word) : Reg := w.extractLsb' 15 5

/-- `rs2`, `inst[24:20]` (R74). -/
def rs2Field (w : Word) : Reg := w.extractLsb' 20 5

/-- The 12 bits of the I-immediate, `inst[31:20]` (R76). -/
def immIField (w : Word) : BitVec 12 := w.extractLsb' 20 12

/-- The 12 bits of the S-immediate, `inst[31:25]` above `inst[11:7]` (R77). -/
def immSField (w : Word) : BitVec 12 := w.extractLsb' 25 7 ++ w.extractLsb' 7 5

/-- The 13 bits of the B-immediate (R78). -/
def immBField (w : Word) : BitVec 13 :=
  w.extractLsb' 31 1 ++ w.extractLsb' 7 1 ++ w.extractLsb' 25 6 ++ w.extractLsb' 8 4 ++ 0#1

/-- The 20 bits `inst[31:12]` of the U-immediate (R79). -/
def immUField (w : Word) : BitVec 20 := w.extractLsb' 12 20

/-- The 21 bits of the J-immediate (R80). -/
def immJField (w : Word) : BitVec 21 :=
  w.extractLsb' 31 1 ++ w.extractLsb' 12 8 ++ w.extractLsb' 20 1 ++ w.extractLsb' 21 10 ++ 0#1

/-- The shift amount `inst[24:20]` (R82). -/
def shamtField (w : Word) : BitVec 5 := w.extractLsb' 20 5

/-! ## The opcode map (R83, R84) -/

/-- A row of the opcode map: a word `w` is this instruction iff `w &&& mask = pat` (R84); `build` reads
its operands from the fields of the row's format (R87). -/
structure Row where
  mnemonic : String
  mask : Word
  pat : Word
  build : Word → Instr

/-- Does the row name the word? (R84) -/
def Row.hits (r : Row) (w : Word) : Bool := w &&& r.mask == r.pat

/-- A row whose operands are `rd, rs1` and an I-immediate (R76). -/
def rowI (name : String) (pat : Word) (c : Reg → Reg → BitVec 12 → Instr) : Row :=
  ⟨name, 0x0000707F#32, pat, fun w => c (rdField w) (rs1Field w) (immIField w)⟩

/-- A row whose operands are `rd, rs1, shamt` (R82). -/
def rowShift (name : String) (pat : Word) (c : Reg → Reg → BitVec 5 → Instr) : Row :=
  ⟨name, 0xFE00707F#32, pat, fun w => c (rdField w) (rs1Field w) (shamtField w)⟩

/-- An R-type row: `rd, rs1, rs2` (R75). -/
def rowR (name : String) (pat : Word) (c : Reg → Reg → Reg → Instr) : Row :=
  ⟨name, 0xFE00707F#32, pat, fun w => c (rdField w) (rs1Field w) (rs2Field w)⟩

/-- A B-type row: `rs1, rs2` and a B-immediate (R78). -/
def rowB (name : String) (pat : Word) (c : Reg → Reg → BitVec 13 → Instr) : Row :=
  ⟨name, 0x0000707F#32, pat, fun w => c (rs1Field w) (rs2Field w) (immBField w)⟩

/-- An S-type row: `rs2, rs1` and an S-immediate (R77). -/
def rowS (name : String) (pat : Word) (c : Reg → Reg → BitVec 12 → Instr) : Row :=
  ⟨name, 0x0000707F#32, pat, fun w => c (rs2Field w) (rs1Field w) (immSField w)⟩

/-- FENCE.TSO, tested before every other row (R87 step 3). -/
def rowFenceTso : Row :=
  ⟨"FENCE.TSO", 0xFFF0707F#32, 0x8330000F#32, fun w => .fenceTso (rs1Field w) (rdField w)⟩

/-- U- and J-type rows and JALR (R84). -/
def rowsUpperAndJump : List Row :=
  [⟨"LUI", 0x0000007F#32, 0x00000037#32, fun w => .lui (rdField w) (immUField w)⟩,
   ⟨"AUIPC", 0x0000007F#32, 0x00000017#32, fun w => .auipc (rdField w) (immUField w)⟩,
   ⟨"JAL", 0x0000007F#32, 0x0000006F#32, fun w => .jal (rdField w) (immJField w)⟩,
   rowI "JALR" 0x00000067#32 .jalr]

/-- The conditional branches (R84). -/
def rowsBranch : List Row :=
  [rowB "BEQ" 0x00000063#32 .beq, rowB "BNE" 0x00001063#32 .bne,
   rowB "BLT" 0x00004063#32 .blt, rowB "BGE" 0x00005063#32 .bge,
   rowB "BLTU" 0x00006063#32 .bltu, rowB "BGEU" 0x00007063#32 .bgeu]

/-- The loads and stores (R84). -/
def rowsMemory : List Row :=
  [rowI "LB" 0x00000003#32 .lb, rowI "LH" 0x00001003#32 .lh, rowI "LW" 0x00002003#32 .lw,
   rowI "LBU" 0x00004003#32 .lbu, rowI "LHU" 0x00005003#32 .lhu,
   rowS "SB" 0x00000023#32 .sb, rowS "SH" 0x00001023#32 .sh, rowS "SW" 0x00002023#32 .sw]

/-- The register-immediate instructions of the major opcode OP-IMM (R84). -/
def rowsOpImm : List Row :=
  [rowI "ADDI" 0x00000013#32 .addi, rowI "SLTI" 0x00002013#32 .slti,
   rowI "SLTIU" 0x00003013#32 .sltiu, rowI "XORI" 0x00004013#32 .xori,
   rowI "ORI" 0x00006013#32 .ori, rowI "ANDI" 0x00007013#32 .andi,
   rowShift "SLLI" 0x00001013#32 .slli, rowShift "SRLI" 0x00005013#32 .srli,
   rowShift "SRAI" 0x40005013#32 .srai]

/-- The register-register instructions of the major opcode OP (R84). -/
def rowsOp : List Row :=
  [rowR "ADD" 0x00000033#32 .add, rowR "SUB" 0x40000033#32 .sub,
   rowR "SLL" 0x00001033#32 .sll, rowR "SLT" 0x00002033#32 .slt,
   rowR "SLTU" 0x00003033#32 .sltu, rowR "XOR" 0x00004033#32 .xor,
   rowR "SRL" 0x00005033#32 .srl, rowR "SRA" 0x40005033#32 .sra,
   rowR "OR" 0x00006033#32 .or, rowR "AND" 0x00007033#32 .and]

/-- FENCE with its fields (R85), and the two SYSTEM words (R86). -/
def rowsFenceAndSystem : List Row :=
  [⟨"FENCE", 0x0000707F#32, 0x0000000F#32, fun w =>
      .fence (w.extractLsb' 28 4) (w.extractLsb' 24 4) (w.extractLsb' 20 4) (rs1Field w) (rdField w)⟩,
   ⟨"ECALL", 0xFFFFFFFF#32, 0x00000073#32, fun _ => .ecall⟩,
   ⟨"EBREAK", 0xFFFFFFFF#32, 0x00100073#32, fun _ => .ebreak⟩]

/-- The 40 rows of R84. -/
def rows : List Row :=
  rowsUpperAndJump ++ rowsBranch ++ rowsMemory ++ rowsOpImm ++ rowsOp ++ rowsFenceAndSystem

/-- The eleven major opcodes of R83. -/
def majorOpcodes : List (BitVec 7) :=
  [0x37#7, 0x17#7, 0x6F#7, 0x67#7, 0x63#7, 0x03#7, 0x23#7, 0x13#7, 0x33#7, 0x0F#7, 0x73#7]

/-! ## Decoding (R87, R88) -/

/-- Why a word, or a run of bytes, is no instruction (R88). -/
inductive DecodeError where
  /-- `inst[1:0]` is not `11`: a 16-bit length, the all-zero word among them (R87 step 1). -/
  | shortLength
  /-- `inst[4:2]` is `111`: 48 bits or longer, the all-one word among them (R87 step 2). -/
  | longLength
  /-- A major opcode that R83 does not list: extensions, reserved and custom (R88 item 3). -/
  | unknownMajorOpcode
  /-- A minor opcode that R84 does not list inside an implemented major opcode (R88 item 4). -/
  | reservedMinorOpcode
  /-- Fewer than four bytes: no 32-bit instruction lies there (R70). -/
  | truncated
  deriving DecidableEq, Repr

/-- The decoding procedure of R87: FENCE.TSO first, then the rows of R84, else no instruction. -/
def decode (w : Word) : Except DecodeError Instr :=
  if w.extractLsb' 0 2 ≠ 0b11#2 then .error .shortLength
  else if w.extractLsb' 2 3 = 0b111#3 then .error .longLength
  else match (rowFenceTso :: rows).find? (fun r => r.hits w) with
    | some r => .ok (r.build w)
    | none =>
      if w.extractLsb' 0 7 ∈ majorOpcodes then .error .reservedMinorOpcode
      else .error .unknownMajorOpcode

/-- Four bytes, the one at the lowest address first, as an instruction word: two little-endian
16-bit parcels, the less significant at the lower address (R48, R72). -/
def wordOfParcels (b0 b1 b2 b3 : Byte) : Word :=
  let low : BitVec 16 := b1 ++ b0
  let high : BitVec 16 := b3 ++ b2
  high ++ low

/-- The decoder on any run of bytes: the instruction at its start and the bytes that follow it. -/
def decodeBytes : List Byte → Except DecodeError (Instr × List Byte)
  | b0 :: b1 :: b2 :: b3 :: rest =>
    match decode (wordOfParcels b0 b1 b2 b3) with
    | .ok i => .ok (i, rest)
    | .error e => .error e
  | _ => .error .truncated

/-! ## Encoding (R75, R95) -/

/-- `R(f7, rs2, rs1, f3, rd, op)` of R95. -/
def encR (f7 : BitVec 7) (rs2 rs1 : Reg) (f3 : BitVec 3) (rd : Reg) (op : BitVec 7) : Word :=
  f7 ++ rs2 ++ rs1 ++ f3 ++ rd ++ op

/-- `I(i, rs1, f3, rd, op)` of R95. -/
def encI (imm : BitVec 12) (rs1 : Reg) (f3 : BitVec 3) (rd : Reg) (op : BitVec 7) : Word :=
  imm ++ rs1 ++ f3 ++ rd ++ op

/-- `S(i, rs2, rs1, f3, op)` of R95. -/
def encS (imm : BitVec 12) (rs2 rs1 : Reg) (f3 : BitVec 3) (op : BitVec 7) : Word :=
  imm.extractLsb' 5 7 ++ rs2 ++ rs1 ++ f3 ++ imm.extractLsb' 0 5 ++ op

/-- `B(i, rs2, rs1, f3, op)` of R95; bit 0 of the immediate has no place in the word. -/
def encB (imm : BitVec 13) (rs2 rs1 : Reg) (f3 : BitVec 3) (op : BitVec 7) : Word :=
  imm.extractLsb' 12 1 ++ imm.extractLsb' 5 6 ++ rs2 ++ rs1 ++ f3 ++
    imm.extractLsb' 1 4 ++ imm.extractLsb' 11 1 ++ op

/-- `U(u20, rd, op)` of R95. -/
def encU (imm : BitVec 20) (rd : Reg) (op : BitVec 7) : Word :=
  imm ++ rd ++ op

/-- `J(i, rd, op)` of R95; bit 0 of the immediate has no place in the word. -/
def encJ (imm : BitVec 21) (rd : Reg) (op : BitVec 7) : Word :=
  imm.extractLsb' 20 1 ++ imm.extractLsb' 1 10 ++ imm.extractLsb' 11 1 ++
    imm.extractLsb' 12 8 ++ rd ++ op

/-- The word of a well-formed instruction, from the columns of R84 (`inst[31:25]`, `inst[14:12]`,
`inst[6:0]`), R85 and R86. -/
def encode : Instr → Word
  | .lui rd imm => encU imm rd 0b0110111#7
  | .auipc rd imm => encU imm rd 0b0010111#7
  | .jal rd imm => encJ imm rd 0b1101111#7
  | .jalr rd rs1 imm => encI imm rs1 0b000#3 rd 0b1100111#7
  | .beq rs1 rs2 imm => encB imm rs2 rs1 0b000#3 0b1100011#7
  | .bne rs1 rs2 imm => encB imm rs2 rs1 0b001#3 0b1100011#7
  | .blt rs1 rs2 imm => encB imm rs2 rs1 0b100#3 0b1100011#7
  | .bge rs1 rs2 imm => encB imm rs2 rs1 0b101#3 0b1100011#7
  | .bltu rs1 rs2 imm => encB imm rs2 rs1 0b110#3 0b1100011#7
  | .bgeu rs1 rs2 imm => encB imm rs2 rs1 0b111#3 0b1100011#7
  | .lb rd rs1 imm => encI imm rs1 0b000#3 rd 0b0000011#7
  | .lh rd rs1 imm => encI imm rs1 0b001#3 rd 0b0000011#7
  | .lw rd rs1 imm => encI imm rs1 0b010#3 rd 0b0000011#7
  | .lbu rd rs1 imm => encI imm rs1 0b100#3 rd 0b0000011#7
  | .lhu rd rs1 imm => encI imm rs1 0b101#3 rd 0b0000011#7
  | .sb rs2 rs1 imm => encS imm rs2 rs1 0b000#3 0b0100011#7
  | .sh rs2 rs1 imm => encS imm rs2 rs1 0b001#3 0b0100011#7
  | .sw rs2 rs1 imm => encS imm rs2 rs1 0b010#3 0b0100011#7
  | .addi rd rs1 imm => encI imm rs1 0b000#3 rd 0b0010011#7
  | .slti rd rs1 imm => encI imm rs1 0b010#3 rd 0b0010011#7
  | .sltiu rd rs1 imm => encI imm rs1 0b011#3 rd 0b0010011#7
  | .xori rd rs1 imm => encI imm rs1 0b100#3 rd 0b0010011#7
  | .ori rd rs1 imm => encI imm rs1 0b110#3 rd 0b0010011#7
  | .andi rd rs1 imm => encI imm rs1 0b111#3 rd 0b0010011#7
  | .slli rd rs1 sh => encR 0b0000000#7 sh rs1 0b001#3 rd 0b0010011#7
  | .srli rd rs1 sh => encR 0b0000000#7 sh rs1 0b101#3 rd 0b0010011#7
  | .srai rd rs1 sh => encR 0b0100000#7 sh rs1 0b101#3 rd 0b0010011#7
  | .add rd rs1 rs2 => encR 0b0000000#7 rs2 rs1 0b000#3 rd 0b0110011#7
  | .sub rd rs1 rs2 => encR 0b0100000#7 rs2 rs1 0b000#3 rd 0b0110011#7
  | .sll rd rs1 rs2 => encR 0b0000000#7 rs2 rs1 0b001#3 rd 0b0110011#7
  | .slt rd rs1 rs2 => encR 0b0000000#7 rs2 rs1 0b010#3 rd 0b0110011#7
  | .sltu rd rs1 rs2 => encR 0b0000000#7 rs2 rs1 0b011#3 rd 0b0110011#7
  | .xor rd rs1 rs2 => encR 0b0000000#7 rs2 rs1 0b100#3 rd 0b0110011#7
  | .srl rd rs1 rs2 => encR 0b0000000#7 rs2 rs1 0b101#3 rd 0b0110011#7
  | .sra rd rs1 rs2 => encR 0b0100000#7 rs2 rs1 0b101#3 rd 0b0110011#7
  | .or rd rs1 rs2 => encR 0b0000000#7 rs2 rs1 0b110#3 rd 0b0110011#7
  | .and rd rs1 rs2 => encR 0b0000000#7 rs2 rs1 0b111#3 rd 0b0110011#7
  | .fenceTso rs1 rd => encI (0b1000#4 ++ 0b0011#4 ++ 0b0011#4) rs1 0b000#3 rd 0b0001111#7
  | .fence fm pred succ rs1 rd => encI (fm ++ pred ++ succ) rs1 0b000#3 rd 0b0001111#7
  | .ecall => encI 0#12 0#5 0b000#3 0#5 0b1110011#7
  | .ebreak => encI 1#12 0#5 0b000#3 0#5 0b1110011#7

/-- The four bytes of a word in memory, lowest address first (R48, R72). -/
def parcelBytes (w : Word) : List Byte :=
  [w.extractLsb' 0 8, w.extractLsb' 8 8, w.extractLsb' 16 8, w.extractLsb' 24 8]

/-- The bytes of an instruction as memory holds them, lowest address first. -/
def encodeBytes (i : Instr) : List Byte := parcelBytes (encode i)

/-! ## The word of an opcode-table row -/

/-- The 32-bit word of a table row's `nbits` bits: every bit at `nbits` or above is 0. -/
def tableWord (nbits w : Nat) : Word := BitVec.ofNat 32 (w % 2 ^ nbits)

/-- What the decoder reads from the bytes of a table word, laid out as the hardware stores them. -/
def decodeTableWord (nbits w : Nat) : Option Instr :=
  match decodeBytes (parcelBytes (tableWord nbits w)) with
  | .ok (i, _) => some i
  | .error _ => none

end Sys2Proof
end

