-- ==== Sys2Proof/Machine/Fetch.lean ====
section
/-! DEFINITION. What happens between the pc and an instruction: the fetch, the decoding and the
exceptions of both (R234 steps 1 to 4), and how an instruction word is placed for the next fetch. -/

namespace Sys2Proof.Machine

/-- What a step finds at the pc. -/
inductive Ready where
  /-- The step ends before any instruction runs. -/
  | stop (o : Host.Outcome State Fault Refusal)
  /-- The instruction to run, and the state after its fetch. -/
  | run (i : Instr) (s : State)

/-- Fetch and decode (R234 steps 1 to 4, R225): InstructionAccessFault records the pc (R214),
IllegalInstruction the word (R213). -/
def fetchDecode (s : State) : Ready :=
  match fetch s with
  | .denied => .stop (takeTrap .instructionAccessFault s.pc s)
  | .stale => .stop (.refused .fetchAfterStore)
  | .word w s' =>
    match decode w with
    | .ok i => .run i s'
    | .error _ => .stop (takeTrap .illegalInstruction w s')

/-- A region of four bytes of fetchable main memory at the address, in front of the map, unless the
map has them already. -/
def mapWithFetch (map : MemMap) (a : Word) : MemMap :=
  if accessible map .fetch a 4 && !touchesIo map a 4 then map
  else { base := a, size := 4, kind := .main, fetch := true, load := true, store := true } :: map

/-- Place a word where the next step fetches: its bytes in memory at the pc, in the order of R48, main
memory there that may be fetched, no stored-to mark on them and no trap pending. Log 8. -/
def placeWord (w : Word) (s : State) : State :=
  { s with
    mem := writeBytes [] s.pc (parcelBytes w) s.mem
    written := s.written.filter (fun a => !(span s.pc 4).any (fun p => p.toNat == a))
    trap := none
    cfg := { s.cfg with memMap := mapWithFetch s.cfg.memMap s.pc } }

end Sys2Proof.Machine
end

