-- ==== Sys2Proof/Machine/Step.lean ====
section
/-! DEFINITION. One step of the machine, and the placing of a word for it to fetch. -/

namespace Sys2Proof.Machine

/-- The step of R234. In a state that holds a trap record the hart has stopped, and what follows is the
execution environment's answer (R222, R223). -/
def step (s : State) : Host.Outcome State Fault Refusal :=
  match s.trap with
  | some record => afterTrap record s
  | none =>
    match fetchDecode s with
    | .stop o => o
    | .run i s' => exec i s'

/-- The state with the instruction of a table row's `nbits` bits `w` placed where the next step
fetches. It stands for the program's load by the execution environment (log 8). -/
def State.withFetchWord (s : State) (nbits w : Nat) : State := placeWord (tableWord nbits w) s

end Sys2Proof.Machine
end

