-- ==== Sys2Proof/Machine/Pseudo.lean ====
section
/-! DEFINITION. Which instructions are integer computational, which are HINTs (R200 to R202), and the
pseudo-instructions as the instructions they expand to (R93, R94). The hardware sees only the
expansions: nothing here has a meaning of its own. -/

namespace Sys2Proof.Machine

/-- The destination of one of the 21 integer computational instructions (R2, R100); none for the other
instructions. -/
def computationalDest : Instr → Option Reg
  | .addi rd _ _ | .slti rd _ _ | .sltiu rd _ _ | .xori rd _ _ | .ori rd _ _ | .andi rd _ _ => some rd
  | .slli rd _ _ | .srli rd _ _ | .srai rd _ _ => some rd
  | .lui rd _ | .auipc rd _ => some rd
  | .add rd _ _ | .sub rd _ _ | .sll rd _ _ | .slt rd _ _ | .sltu rd _ _ => some rd
  | .xor rd _ _ | .srl rd _ _ | .sra rd _ _ | .or rd _ _ | .and rd _ _ => some rd
  | .jal _ _ | .jalr _ _ _ => none
  | .beq _ _ _ | .bne _ _ _ | .blt _ _ _ | .bge _ _ _ | .bltu _ _ _ | .bgeu _ _ _ => none
  | .lb _ _ _ | .lh _ _ _ | .lw _ _ _ | .lbu _ _ _ | .lhu _ _ _ => none
  | .sb _ _ _ | .sh _ _ _ | .sw _ _ _ => none
  | .fenceTso _ _ | .fence _ _ _ _ _ | .ecall | .ebreak => none

/-- The canonical no-operation, `addi x0, x0, 0` (R129). -/
def nop : Instr := .addi 0#5 0#5 0#12

/-- The HINT code points: an integer computational instruction with `rd = x0`, the NOP apart (R201). -/
def isHint (i : Instr) : Bool := computationalDest i == some 0#5 && i != nop

/-! ## The pseudo-instructions of the source (R93) -/

/-- `mv rd, rs` (R125). -/
def pseudoMv (rd rs : Reg) : Instr := .addi rd rs 0#12

/-- `seqz rd, rs` (R126). -/
def pseudoSeqz (rd rs : Reg) : Instr := .sltiu rd rs 1#12

/-- `not rd, rs` (R127). -/
def pseudoNot (rd rs : Reg) : Instr := .xori rd rs 0xFFF#12

/-- `snez rd, rs`: rs goes into the rs2 field (R128, C3). -/
def pseudoSnez (rd rs : Reg) : Instr := .sltu rd 0#5 rs

/-- `j label`, by the offset the assembler encodes (R142). -/
def pseudoJ (offset : BitVec 21) : Instr := .jal 0#5 offset

/-! ## The further pseudo-instructions of R94 (general knowledge, as that rule says) -/

/-- The two parts of a 32-bit constant (R130): the 12-bit low part, read as signed, and the 20-bit high
part that with it gives the constant. -/
def lowPart (c : BitVec 32) : BitVec 12 := c.extractLsb' 0 12

/-- The high part of R130: one more than bits 31..12 when bit 11 is set, modulo 2^20. -/
def highPart (c : BitVec 32) : BitVec 20 := (c - (lowPart c).signExtend 32).extractLsb' 12 20

/-- `li rd, imm`: one ADDI where the constant is a 12-bit signed number, else LUI and ADDI. -/
def pseudoLi (rd : Reg) (c : BitVec 32) : List Instr :=
  if (lowPart c).signExtend 32 = c then [.addi rd 0#5 (lowPart c)]
  else [.lui rd (highPart c), .addi rd rd (lowPart c)]

/-- `ret`. -/
def pseudoRet : Instr := .jalr 0#5 1#5 0#12

/-- `jr rs`. -/
def pseudoJr (rs : Reg) : Instr := .jalr 0#5 rs 0#12

/-- A `call` pair, to the address the AUIPC's own address plus `offset`. -/
def pseudoCall (offset : BitVec 32) : List Instr :=
  [.auipc 1#5 (highPart offset), .jalr 1#5 1#5 (lowPart offset)]

/-- `beqz rs, label`. -/
def pseudoBeqz (rs : Reg) (offset : BitVec 13) : Instr := .beq rs 0#5 offset

/-- `bnez rs, label`. -/
def pseudoBnez (rs : Reg) (offset : BitVec 13) : Instr := .bne rs 0#5 offset

/-- `bgt rs, rt, label`. -/
def pseudoBgt (rs rt : Reg) (offset : BitVec 13) : Instr := .blt rt rs offset

/-- `ble rs, rt, label`. -/
def pseudoBle (rs rt : Reg) (offset : BitVec 13) : Instr := .bge rt rs offset

/-- `bgtu rs, rt, label`. -/
def pseudoBgtu (rs rt : Reg) (offset : BitVec 13) : Instr := .bltu rt rs offset

/-- `bleu rs, rt, label`. -/
def pseudoBleu (rs rt : Reg) (offset : BitVec 13) : Instr := .bgeu rt rs offset

/-- `neg rd, rs`. -/
def pseudoNeg (rd rs : Reg) : Instr := .sub rd 0#5 rs

/-- `sltz rd, rs`. -/
def pseudoSltz (rd rs : Reg) : Instr := .slt rd rs 0#5

/-- `sgtz rd, rs`. -/
def pseudoSgtz (rd rs : Reg) : Instr := .slt rd 0#5 rs

end Sys2Proof.Machine
end

