-- ==== Sys2Proof/Safety.lean ====
section
/-! DEFINITION. The terms the statements use: the invariant of every reachable state, what a safe run
is, and what an instruction leaves unchanged. -/

namespace Sys2Proof.Machine

/-! ## The invariant and safe states -/

/-- What the recorded value of a trap is, by its cause (R211). For an access exception the value is the
effective address, of which nothing more holds than that R169 raised it there. -/
def TrapRecord.Sound (r : TrapRecord) : Prop :=
  match r.cause with
  | .instructionAddressMisaligned => r.value.toNat % 4 ≠ 0
  | .instructionAccessFault => r.value = r.pc
  | .illegalInstruction => ∀ i, decode r.value ≠ .ok i
  | .breakpoint => r.value = r.pc
  | .loadAddressMisaligned => r.value.toNat % 4 ≠ 0
  | .storeAddressMisaligned => r.value.toNat % 4 ≠ 0
  | .loadAccessFault => True
  | .storeAccessFault => True
  | .environmentCall => r.value = 0#32

/-- The invariant: memory and Written have their canonical forms, the pc is a multiple of 4 (R25), a
trap record is about the instruction at the pc (R222 item 3) and its value is what R211 says, and the
memories the EE may still give the hart are canonical. -/
def State.Inv (s : State) : Prop :=
  Memory.wf s.mem ∧
  s.written.Pairwise (· < ·) ∧ (∀ a ∈ s.written, a < 2 ^ 32) ∧
  s.pc.toNat % 4 = 0 ∧
  (∀ r, s.trap = some r → r.pc = s.pc ∧ TrapRecord.Sound r) ∧
  (∀ image ∈ s.ee, Memory.wf image.mem)

/-- A state is safe when the hart runs or has stopped at a requested trap: no fatal trap (R220). -/
def State.Safe (s : State) : Prop := ∀ r, s.trap = some r → trapKind r.cause = .requested

/-- How a run that has ended ended (R252). -/
inductive RunEnd where
  /-- The program asked the EE for a service. -/
  | normal
  /-- It returned control to the debugger. -/
  | debugger
  /-- It ended in a fatal trap. -/
  | fatal
  deriving DecidableEq, Repr

/-- The kind of end a trap record stands for (R252). -/
def runEnd (r : TrapRecord) : RunEnd :=
  match trapKind r.cause with
  | .fatal => .fatal
  | .contained => .fatal
  | .invisible => .fatal
  | .requested => if r.cause = .environmentCall then .normal else .debugger

/-! ## Frames -/

/-- Nothing of memory differs: not one byte read, nor what is listed, nor Written. -/
def SameMemory (s t : State) : Prop :=
  (∀ a, t.mem.read a = s.mem.read a) ∧ t.mem = s.mem ∧ t.written = s.written

/-- No register differs. -/
def SameRegisters (s t : State) : Prop := (∀ r, t.x r = s.x r) ∧ t.regs = s.regs

/-- The register `rd` reads `v` (`x0` still 0) and every other register reads as before (R21). -/
def WritesOnly (rd : Reg) (v : Word) (s t : State) : Prop :=
  ∀ r, t.x r = if r = 0#5 then 0#32 else if r = rd then v else s.x r

/-- The trap record, the EE's replies and the parameters are as before. -/
def SameOutside (s t : State) : Prop := t.trap = s.trap ∧ t.ee = s.ee ∧ t.cfg = s.cfg

/-- An instruction that only computes: `x[rd]` gets `v`, the pc advances by 4 modulo 2^32 (R24), and
nothing else of the state differs (R100). -/
def Computes (rd : Reg) (v : Word) (s t : State) : Prop :=
  WritesOnly rd v s t ∧ t.pc = s.pc + 4#32 ∧ SameMemory s t ∧ t.io = s.io ∧ SameOutside s t

/-- An instruction that only sets the pc to `target`. -/
def Continues (target : Word) (s t : State) : Prop :=
  SameRegisters s t ∧ t.pc = target ∧ SameMemory s t ∧ t.io = s.io ∧ SameOutside s t

/-- A trap taken at the instruction at the pc: the record says so, and no register, no byte of memory
and not the pc differs (R222). -/
def TrapTaken (c : Cause) (value : Word) (s t : State) : Prop :=
  t.trap = some { cause := c, pc := s.pc, value := value } ∧
  SameRegisters s t ∧ t.pc = s.pc ∧ SameMemory s t ∧ t.io = s.io ∧ t.ee = s.ee ∧ t.cfg = s.cfg

/-- Which byte of an `n`-byte value, counted from the least significant, lies `k` bytes above the
access's address (R47). -/
def byteOrder (e : Endian) (n k : Nat) : Nat :=
  match e with
  | .little => k
  | .big => n - 1 - k

end Sys2Proof.Machine
end

