-- ==== Sys2Proof/Certificates/Slice0/Obligations.lean ====
section
/-! DEFINITION. The statements for the provers. Each docstring names the rule or the section of spec/
that its statement formalises. -/

open Sys2Proof Sys2Proof.Machine

/-! ## Shapes that several statements share -/

/-- Every word that a row of the opcode map selects decodes to the instruction built from its fields
(R84, R87). -/
def Sys2Proof.Claims.NamesWords (mask pat : Word) (build : Word → Instr) : Prop :=
  ∀ w : Word, w &&& mask = pat → decode w = .ok (build w)

/-- The row names its words, and on every register and immediate the instruction writes `value` to
`rd`, advances the pc and changes nothing else. -/
def Sys2Proof.Claims.ComputesImmediate (pat : Word) (mk : Reg → Reg → BitVec 12 → Instr)
    (value : Word → BitVec 12 → Word → Prop) : Prop :=
  Claims.NamesWords 0x0000707F#32 pat (fun w => mk (rdField w) (rs1Field w) (immIField w)) ∧
  ∀ (rd rs1 : Reg) (imm : BitVec 12) (s : State), ∃ t v,
    exec (mk rd rs1 imm) s = .next t ∧ Computes rd v s t ∧ value (s.x rs1) imm v

/-- The same for a shift by an immediate. -/
def Sys2Proof.Claims.ComputesShift (pat : Word) (mk : Reg → Reg → BitVec 5 → Instr)
    (value : Word → Nat → Word → Prop) : Prop :=
  Claims.NamesWords 0xFE00707F#32 pat (fun w => mk (rdField w) (rs1Field w) (shamtField w)) ∧
  ∀ (rd rs1 : Reg) (shamt : BitVec 5) (s : State), ∃ t v,
    exec (mk rd rs1 shamt) s = .next t ∧ Computes rd v s t ∧ value (s.x rs1) shamt.toNat v

/-- The same for two source registers. -/
def Sys2Proof.Claims.ComputesRegisters (pat : Word) (mk : Reg → Reg → Reg → Instr)
    (value : Word → Word → Word → Prop) : Prop :=
  Claims.NamesWords 0xFE00707F#32 pat (fun w => mk (rdField w) (rs1Field w) (rs2Field w)) ∧
  ∀ (rd rs1 rs2 : Reg) (s : State), ∃ t v,
    exec (mk rd rs1 rs2) s = .next t ∧ Computes rd v s t ∧ value (s.x rs1) (s.x rs2) v

/-- A jump to `target` with its link: `x[rd]` gets the address of the next instruction, and only the pc
differs besides. -/
def Sys2Proof.Claims.JumpsTo (rd : Reg) (target : Word) (s t : State) : Prop :=
  WritesOnly rd (s.pc + 4#32) s t ∧ t.pc = target ∧ SameMemory s t ∧ t.io = s.io ∧ SameOutside s t

/-- The whole of R146 for one branch: taken to an aligned target, taken to a misaligned one, not
taken. The target is the sum of the pc and the signed immediate, modulo 2^32. -/
def Sys2Proof.Claims.BranchesWhen (pat : Word) (mk : Reg → Reg → BitVec 13 → Instr)
    (cond : Word → Word → Prop) : Prop :=
  Claims.NamesWords 0x0000707F#32 pat (fun w => mk (rs1Field w) (rs2Field w) (immBField w)) ∧
  ∀ (rs1 rs2 : Reg) (imm : BitVec 13) (s : State),
    let target : Word := BitVec.ofInt 32 (s.pc.toInt + imm.toInt)
    (cond (s.x rs1) (s.x rs2) → target.toNat % 4 = 0 →
      ∃ t, exec (mk rs1 rs2 imm) s = .next t ∧ Continues target s t) ∧
    (cond (s.x rs1) (s.x rs2) → target.toNat % 4 ≠ 0 →
      ∃ t, exec (mk rs1 rs2 imm) s = .next t ∧
        TrapTaken .instructionAddressMisaligned target s t) ∧
    (¬ cond (s.x rs1) (s.x rs2) →
      ∃ t, exec (mk rs1 rs2 imm) s = .next t ∧ Continues (s.pc + 4#32) s t)

/-- A load or store of more than one byte at an address that is not a multiple of its size raises the
misaligned exception under MISALIGNED_DATA = `trap`, whether or not its bytes are accessible (R50, R169;
decisions D4 and D18). -/
def Sys2Proof.Claims.TrapsMisaligned (mk : Reg → Reg → BitVec 12 → Instr) (n : Nat) (c : Cause) : Prop :=
  ∀ (r rs1 : Reg) (imm : BitVec 12) (s : State), s.cfg.misaligned = .trap →
    (effectiveAddress rs1 imm s).toNat % n ≠ 0 →
    ∃ t, exec (mk r rs1 imm) s = .next t ∧ TrapTaken c (effectiveAddress rs1 imm s) s t

/-- The rule of a load of `n` bytes (R160, R169, R170) where the misaligned exception is not raised: its
address, base plus signed immediate modulo 2^32; the access fault (decision D6), else the value. Byte `byteOrder k` of
the value is memory's byte `k` addresses above the address, or the device's where that is I/O (logs 9
and 10: the model's own); `extended` says how the `n` bytes fill the register. An access that touches
I/O is logged once, and nothing else differs. -/
def Sys2Proof.Claims.Loads (pat : Word) (mk : Reg → Reg → BitVec 12 → Instr) (n : Nat)
    (extended : Word → Prop) : Prop :=
  Claims.NamesWords 0x0000707F#32 pat (fun w => mk (rdField w) (rs1Field w) (immIField w)) ∧
  ∀ (rd rs1 : Reg) (imm : BitVec 12) (s : State),
    let a := effectiveAddress rs1 imm s
    a = BitVec.ofInt 32 ((s.x rs1).toInt + imm.toInt) ∧
    ((s.cfg.misaligned = .support ∨ a.toNat % n = 0) →
      accessible s.cfg.memMap .load a n = false →
      ∃ t, exec (mk rd rs1 imm) s = .next t ∧ TrapTaken .loadAccessFault a s t) ∧
    ((s.cfg.misaligned = .support ∨ a.toNat % n = 0) →
      accessible s.cfg.memMap .load a n = true →
      ∃ t v, exec (mk rd rs1 imm) s = .next t ∧
        WritesOnly rd v s t ∧ extended v ∧
        (∀ k < n, kindAt s.cfg.memMap (a + BitVec.ofNat 32 k) ≠ .io →
          v.extractLsb' (8 * byteOrder s.cfg.endian n k) 8
            = s.mem.read (a + BitVec.ofNat 32 k).toNat) ∧
        (∀ k < n, kindAt s.cfg.memMap (a + BitVec.ofNat 32 k) = .io →
          v.extractLsb' (8 * byteOrder s.cfg.endian n k) 8
            = (Config.ioReply (s.io ++ [IoEvent.load a n])).extractLsb' (8 * k) 8) ∧
        t.pc = s.pc + 4#32 ∧ SameMemory s t ∧ SameOutside s t ∧
        t.io = (if touchesIo s.cfg.memMap a n then s.io ++ [IoEvent.load a n] else s.io))

/-- The rule of a store of the low `n` bytes of `x[rs2]` (R160, R169) where the misaligned exception is not
raised: its address; the access fault (decision D6), else the bytes (to I/O: logs 9 and 10). Every byte of memory outside the access reads as
before, and exactly the access's addresses join Written (R32). -/
def Sys2Proof.Claims.Stores (pat : Word) (mk : Reg → Reg → BitVec 12 → Instr) (n : Nat) : Prop :=
  Claims.NamesWords 0x0000707F#32 pat (fun w => mk (rs2Field w) (rs1Field w) (immSField w)) ∧
  ∀ (rs2 rs1 : Reg) (imm : BitVec 12) (s : State),
    let a := effectiveAddress rs1 imm s
    a = BitVec.ofInt 32 ((s.x rs1).toInt + imm.toInt) ∧
    ((s.cfg.misaligned = .support ∨ a.toNat % n = 0) →
      accessible s.cfg.memMap .store a n = false →
      ∃ t, exec (mk rs2 rs1 imm) s = .next t ∧ TrapTaken .storeAccessFault a s t) ∧
    ((s.cfg.misaligned = .support ∨ a.toNat % n = 0) →
      accessible s.cfg.memMap .store a n = true →
      ∃ t, exec (mk rs2 rs1 imm) s = .next t ∧
        (∀ k < n, kindAt s.cfg.memMap (a + BitVec.ofNat 32 k) ≠ .io →
          t.mem.read (a + BitVec.ofNat 32 k).toNat
            = (s.x rs2).extractLsb' (8 * byteOrder s.cfg.endian n k) 8) ∧
        (∀ q : Nat, (∀ k < n, (a + BitVec.ofNat 32 k).toNat = q →
            kindAt s.cfg.memMap (a + BitVec.ofNat 32 k) = .io) →
          t.mem.read q = s.mem.read q) ∧
        (∀ q : Nat, q ∈ t.written ↔ q ∈ s.written ∨ ∃ k < n, (a + BitVec.ofNat 32 k).toNat = q) ∧
        SameRegisters s t ∧ t.pc = s.pc + 4#32 ∧ SameOutside s t ∧
        t.io = (if touchesIo s.cfg.memMap a n then
          s.io ++ [IoEvent.store a n (BitVec.ofNat 32 ((s.x rs2).toNat % 2 ^ (8 * n)))] else s.io))

/-- The same state under another MEM_ENDIAN. -/
def Sys2Proof.Claims.withEndian (e : Endian) (s : State) : State :=
  { s with cfg := { s.cfg with endian := e } }

/-- The four bytes at the pc may be fetched: accessible, and not refused (R234 steps 1 and 2). -/
def Sys2Proof.Claims.Fetchable (s : State) : Prop :=
  accessible s.cfg.memMap .fetch s.pc 4 = true ∧
  (s.cfg.fetchAfterStore = .coherent ∨ ∀ k < 4, (s.pc + BitVec.ofNat 32 k).toNat ∉ s.written)

/-- The four bytes at the pc lie outside I/O and memory holds the word there, the least significant byte
lowest, whatever MEM_ENDIAN is (R48). -/
def Sys2Proof.Claims.HoldsWord (s : State) (w : Word) : Prop :=
  ∀ k < 4, kindAt s.cfg.memMap (s.pc + BitVec.ofNat 32 k) ≠ .io ∧
    s.mem.read (s.pc + BitVec.ofNat 32 k).toNat = w.extractLsb' (8 * k) 8

/-- The six branches and two jumps, which alone set the pc to a target (R24, R140). -/
def Sys2Proof.Claims.isTransfer : Instr → Bool
  | .jal _ _ | .jalr _ _ _ => true
  | .beq _ _ _ | .bne _ _ _ | .blt _ _ _ | .bge _ _ _ | .bltu _ _ _ | .bgeu _ _ _ => true
  | .lb _ _ _ | .lh _ _ _ | .lw _ _ _ | .lbu _ _ _ | .lhu _ _ _ => false
  | .sb _ _ _ | .sh _ _ _ | .sw _ _ _ => false
  | .addi _ _ _ | .slti _ _ _ | .sltiu _ _ _ | .xori _ _ _ | .ori _ _ _ | .andi _ _ _ => false
  | .slli _ _ _ | .srli _ _ _ | .srai _ _ _ | .lui _ _ | .auipc _ _ => false
  | .add _ _ _ | .sub _ _ _ | .sll _ _ _ | .slt _ _ _ | .sltu _ _ _ => false
  | .xor _ _ _ | .srl _ _ _ | .sra _ _ _ | .or _ _ _ | .and _ _ _ => false
  | .fenceTso _ _ | .fence _ _ _ _ _ | .ecall | .ebreak => false

/-- The three stores. -/
def Sys2Proof.Claims.isStore : Instr → Bool
  | .jal _ _ | .jalr _ _ _ => false
  | .beq _ _ _ | .bne _ _ _ | .blt _ _ _ | .bge _ _ _ | .bltu _ _ _ | .bgeu _ _ _ => false
  | .lb _ _ _ | .lh _ _ _ | .lw _ _ _ | .lbu _ _ _ | .lhu _ _ _ => false
  | .sb _ _ _ | .sh _ _ _ | .sw _ _ _ => true
  | .addi _ _ _ | .slti _ _ _ | .sltiu _ _ _ | .xori _ _ _ | .ori _ _ _ | .andi _ _ _ => false
  | .slli _ _ _ | .srli _ _ _ | .srai _ _ _ | .lui _ _ | .auipc _ _ => false
  | .add _ _ _ | .sub _ _ _ | .sll _ _ _ | .slt _ _ _ | .sltu _ _ _ => false
  | .xor _ _ _ | .srl _ _ _ | .sra _ _ _ | .or _ _ _ | .and _ _ _ => false
  | .fenceTso _ _ | .fence _ _ _ _ _ | .ecall | .ebreak => false

/-- The five loads. -/
def Sys2Proof.Claims.isLoad : Instr → Bool
  | .jal _ _ | .jalr _ _ _ => false
  | .beq _ _ _ | .bne _ _ _ | .blt _ _ _ | .bge _ _ _ | .bltu _ _ _ | .bgeu _ _ _ => false
  | .lb _ _ _ | .lh _ _ _ | .lw _ _ _ | .lbu _ _ _ | .lhu _ _ _ => true
  | .sb _ _ _ | .sh _ _ _ | .sw _ _ _ => false
  | .addi _ _ _ | .slti _ _ _ | .sltiu _ _ _ | .xori _ _ _ | .ori _ _ _ | .andi _ _ _ => false
  | .slli _ _ _ | .srli _ _ _ | .srai _ _ _ | .lui _ _ | .auipc _ _ => false
  | .add _ _ _ | .sub _ _ _ | .sll _ _ _ | .slt _ _ _ | .sltu _ _ _ => false
  | .xor _ _ _ | .srl _ _ _ | .sra _ _ _ | .or _ _ _ | .and _ _ _ => false
  | .fenceTso _ _ | .fence _ _ _ _ _ | .ecall | .ebreak => false

/-- The exceptions that the table of R211 lets an instruction raise of its own. -/
def Sys2Proof.Claims.mayRaise : Instr → List Cause
  | .jal _ _ | .jalr _ _ _ => [.instructionAddressMisaligned]
  | .beq _ _ _ | .bne _ _ _ | .blt _ _ _ | .bge _ _ _ | .bltu _ _ _ | .bgeu _ _ _ =>
    [.instructionAddressMisaligned]
  | .lb _ _ _ | .lbu _ _ _ => [.loadAccessFault]
  | .lh _ _ _ | .lhu _ _ _ | .lw _ _ _ => [.loadAddressMisaligned, .loadAccessFault]
  | .sb _ _ _ => [.storeAccessFault]
  | .sh _ _ _ | .sw _ _ _ => [.storeAddressMisaligned, .storeAccessFault]
  | .addi _ _ _ | .slti _ _ _ | .sltiu _ _ _ | .xori _ _ _ | .ori _ _ _ | .andi _ _ _ => []
  | .slli _ _ _ | .srli _ _ _ | .srai _ _ _ | .lui _ _ | .auipc _ _ => []
  | .add _ _ _ | .sub _ _ _ | .sll _ _ _ | .slt _ _ _ | .sltu _ _ _ => []
  | .xor _ _ _ | .srl _ _ _ | .sra _ _ _ | .or _ _ _ | .and _ _ _ => []
  | .fenceTso _ _ | .fence _ _ _ _ _ => []
  | .ecall => [.environmentCall]
  | .ebreak => [.breakpoint]

/-! ## Encoding -/

/-- Decode and encode agree (30_encoding.md sections 2 to 6): the word of a well-formed instruction
decodes to it, with every operand at every value, and so do its bytes whatever follows them. -/
def Obligations.DecodeOfEncode : Prop :=
  ∀ i : Instr, WellFormed i = true →
    decode (encode i) = .ok i ∧
    ∀ rest : List Byte, decodeBytes (encodeBytes i ++ rest) = .ok (i, rest)

/-- The other direction: a word that decodes is the word of the instruction it decodes to, which is well
formed; no bit of a word is dropped. -/
def Obligations.EncodeOfDecode : Prop :=
  ∀ (w : Word) (i : Instr), decode w = .ok i → WellFormed i = true ∧ encode i = w

/-- "No two rows overlap: no word matches two of them" (30_encoding.md section 4, marked derived). The
FENCE.TSO row, which is no row of that table, lies inside the FENCE row. -/
def Obligations.NoWordMatchesTwoRows : Prop :=
  (∀ (w : Word) (p q : Row), p ∈ rows → q ∈ rows → p.hits w = true → q.hits w = true →
    p.mnemonic = q.mnemonic ∧ p.mask = q.mask ∧ p.pat = q.pat) ∧
  (∀ w : Word, rowFenceTso.hits w = true → ∃ p ∈ rows, p.mnemonic = "FENCE" ∧ p.hits w = true)

/-- Which words are instructions, said by the fields opcode, funct3 and `inst[31:25]`: every minor opcode
that 30_encoding.md section 5 item 4 lists as illegal is left out, and every other word is illegal
(decision D10 of 92_eei_decisions.md). -/
def Obligations.AcceptedWordsByFields : Prop :=
  ∀ w : Word,
    let op := w.toNat % 2 ^ 7
    let f3 := w.toNat / 2 ^ 12 % 2 ^ 3
    let f7 := w.toNat / 2 ^ 25
    (∃ i, decode w = .ok i) ↔
      (op = 0x37 ∨ op = 0x17 ∨ op = 0x6F ∨ (op = 0x67 ∧ f3 = 0) ∨
       (op = 0x63 ∧ f3 ≠ 2 ∧ f3 ≠ 3) ∨
       (op = 0x03 ∧ f3 ≠ 3 ∧ f3 ≠ 6 ∧ f3 ≠ 7) ∨
       (op = 0x23 ∧ f3 < 3) ∨
       (op = 0x13 ∧ (f3 = 1 → f7 = 0) ∧ (f3 = 5 → f7 = 0 ∨ f7 = 0x20)) ∨
       (op = 0x33 ∧ (f7 = 0 ∨ (f7 = 0x20 ∧ (f3 = 0 ∨ f3 = 5)))) ∨
       (op = 0x0F ∧ f3 = 0) ∨
       w = 0x00000073#32 ∨ w = 0x00100073#32)

/-- A few words of 95_test_vectors.md decode to the instructions it names, one of each family. -/
def Obligations.SampleWordsDecode : Prop :=
  decode 0xFFF30293#32 = .ok (.addi 5 6 0xFFF#12) ∧
  decode 0x40435293#32 = .ok (.srai 5 6 4) ∧
  decode 0x407302B3#32 = .ok (.sub 5 6 7) ∧
  decode 0x123452B7#32 = .ok (.lui 5 0x12345#20) ∧
  decode 0xFFDFF0EF#32 = .ok (.jal 1 0x1FFFFC#21) ∧
  decode 0xFE629CE3#32 = .ok (.bne 5 6 0x1FF8#13) ∧
  decode 0xFFE31283#32 = .ok (.lh 5 6 0xFFE#12) ∧
  decode 0xFE732E23#32 = .ok (.sw 7 6 0xFFC#12) ∧
  decode 0x0120000F#32 = .ok (.fence 0 1 2 0 0) ∧
  decode 0x8330000F#32 = .ok (.fenceTso 0 0) ∧
  decode 0x00100073#32 = .ok .ebreak

/-- The register fields and the immediates as numbers (30_encoding.md sections 2 and 3): every immediate
is sign-extended from `inst[31]`, and the pieces have the weights the bit lists give them. -/
def Obligations.FieldsAsNumbers : Prop :=
  ∀ w : Word,
    let bit (k : Nat) : Int := (w.toNat / 2 ^ k % 2 : Nat)
    let piece (lo len : Nat) : Int := (w.toNat / 2 ^ lo % 2 ^ len : Nat)
    ((rdField w).toNat : Int) = piece 7 5 ∧
    ((rs1Field w).toNat : Int) = piece 15 5 ∧
    ((rs2Field w).toNat : Int) = piece 20 5 ∧
    ((shamtField w).toNat : Int) = piece 20 5 ∧
    (immIField w).toInt = piece 20 11 - 2048 * bit 31 ∧
    (immSField w).toInt = 32 * piece 25 6 + piece 7 5 - 2048 * bit 31 ∧
    (immBField w).toInt = 2048 * bit 7 + 32 * piece 25 6 + 2 * piece 8 4 - 4096 * bit 31 ∧
    ((immUField w).toNat : Int) = piece 12 20 ∧
    (immJField w).toInt =
      4096 * piece 12 8 + 2048 * bit 20 + 2 * piece 21 10 - 1048576 * bit 31

/-- The words whose instruction is integer computational with `rd = x0`: the HINT code points and the
NOP, by opcode and `rd` field (45_hints.md). -/
def Obligations.HintCodePoints : Prop :=
  ∀ (w : Word) (i : Instr), decode w = .ok i →
    ((computationalDest i = some 0#5 ↔
      (w.toNat % 2 ^ 7 = 0x13 ∨ w.toNat % 2 ^ 7 = 0x33 ∨ w.toNat % 2 ^ 7 = 0x37 ∨
        w.toNat % 2 ^ 7 = 0x17) ∧ w.toNat / 2 ^ 7 % 2 ^ 5 = 0) ∧
     (isHint i = true ↔ computationalDest i = some 0#5 ∧ w ≠ 0x00000013#32))

/-! ## The step -/

/-- A step runs the decoded instruction: when the hart runs, the bytes at the pc may be fetched and they
hold a word that decodes, the step is the instruction's meaning at that very state (60_exceptions.md
section 5, the step of the hart). -/
def Obligations.StepRunsDecodedInstruction : Prop :=
  ∀ (s : State) (w : Word) (i : Instr), s.trap = none → Claims.Fetchable s → Claims.HoldsWord s w →
    decode w = .ok i → step s = exec i s

/-- The same for an instruction that was encoded into memory at the pc. -/
def Obligations.StepRunsEncodedInstruction : Prop :=
  ∀ (s : State) (i : Instr), s.trap = none → Claims.Fetchable s → WellFormed i = true →
    Claims.HoldsWord s (encode i) → step s = exec i s

/-- An instruction word placed by `withFetchWord` is what the very next step runs, from every state; the
placing changes no register and not the pc (the program's load of log 8: the model's own). -/
def Obligations.PlacedWordRunsNext : Prop :=
  ∀ (s : State) (w : Nat) (i : Instr), decode (BitVec.ofNat 32 w) = .ok i →
    step (s.withFetchWord 32 w) = exec i (s.withFetchWord 32 w) ∧
    SameRegisters s (s.withFetchWord 32 w) ∧ (s.withFetchWord 32 w).pc = s.pc

/-- Every state has a step or is one of two that the spec says have none: the hart has trapped and the
execution environment does not resume it, or the fetch is of bytes the hart has stored to
(60_exceptions.md section 5; 93_implementation_defined.md, "Nothing in this spec has the treatment
`stuck`"). That the EE's answers are a list in the state is the model's own (log 2). -/
def Obligations.StepOutcomes : Prop :=
  ∀ s : State,
    (∃ t, step s = .next t) ∨
    (∃ r, s.trap = some r ∧ s.ee = [] ∧ step s = .fault (.runEnded r)) ∨
    (s.trap = none ∧ s.cfg.fetchAfterStore = .refuse ∧
      accessible s.cfg.memMap .fetch s.pc 4 = true ∧
      (∃ k < 4, (s.pc + BitVec.ofNat 32 k).toNat ∈ s.written) ∧
      step s = .refused .fetchAfterStore)

/-- A fetch that may not reach one of its four bytes raises InstructionAccessFault with the pc, whatever
the bytes hold and whether or not they were stored to (60_exceptions.md sections 2 and 4; decisions D6
and D18). -/
def Obligations.FetchFaultComesFirst : Prop :=
  ∀ s : State, s.trap = none →
    (∃ k < 4, accessibleAt s.cfg.memMap .fetch (s.pc + BitVec.ofNat 32 k) = false) →
    ∃ t, step s = .next t ∧ TrapTaken .instructionAccessFault s.pc s t

/-- A fetch of a byte the hart has stored to is refused under `refuse`; under `coherent` it is not
(20_memory.md section 8; decision D9). -/
def Obligations.FetchOfStoredBytes : Prop :=
  ∀ s : State, s.trap = none → accessible s.cfg.memMap .fetch s.pc 4 = true →
    (∃ k < 4, (s.pc + BitVec.ofNat 32 k).toNat ∈ s.written) →
    (s.cfg.fetchAfterStore = .refuse → step s = .refused .fetchAfterStore) ∧
    (s.cfg.fetchAfterStore = .coherent → ∃ t, step s = .next t)

/-- A word that is no instruction raises IllegalInstruction with the word as its value, and the state is
otherwise as it was (60_exceptions.md section 2; decision D10). -/
def Obligations.IllegalWordTraps : Prop :=
  ∀ (s : State) (w : Word) (e : DecodeError), s.trap = none → Claims.Fetchable s →
    Claims.HoldsWord s w → decode w = .error e →
    ∃ t, step s = .next t ∧ TrapTaken .illegalInstruction w s t

/-- The model's choice of logs 9 and 10: a fetch from an I/O range takes its word from the device, once,
and what follows, the instruction or the illegal-instruction trap, happens in the state whose log says
so. It holds for every device. -/
def Obligations.FetchFromDevice : Prop :=
  ∀ s : State, s.trap = none → Claims.Fetchable s →
    (∀ k < 4, kindAt s.cfg.memMap (s.pc + BitVec.ofNat 32 k) = .io) →
    let after := s.setIo (s.io ++ [.fetch s.pc])
    let word := Config.ioReply (s.io ++ [.fetch s.pc])
    step s = match decode word with
      | .ok i => exec i after
      | .error _ => takeTrap .illegalInstruction word after

/-- What follows a trap (60_exceptions.md section 5; decision D16; the list of replies is the model's
own, log 2): with no reply the run is over, otherwise the hart resumes in the EE's state, at a pc that
is a multiple of 4. -/
def Obligations.AfterTrapEndsOrResumes : Prop :=
  ∀ (s : State) (r : TrapRecord), s.trap = some r →
    (s.ee = [] → step s = .fault (.runEnded r)) ∧
    (∀ image rest, s.ee = image :: rest → ∃ t, step s = .next t ∧
      (∀ q : Reg, t.x q = if h : q = 0#5 then 0#32 else
        image.regs[q.toNat - 1]'(by have := q.isLt; omega)) ∧
      t.pc.toNat = 4 * image.pcIndex.toNat ∧ t.mem = image.mem ∧ t.trap = none ∧ t.ee = rest ∧
      t.written = s.written ∧ t.io = s.io ∧ t.cfg = s.cfg)

/-- No meaning faults or refuses: on every instruction and every state `exec` answers a next state. -/
def Obligations.EveryInstructionAnswersNext : Prop :=
  ∀ (i : Instr) (s : State), ∃ t, exec i s = .next t

/-- A trap is precise (60_exceptions.md section 5; decision D15): when an instruction traps, the record
names its address, and no register, no byte of memory and not the pc has changed. -/
def Obligations.TrapIsPrecise : Prop :=
  ∀ (i : Instr) (s t : State) (r : TrapRecord), s.trap = none → exec i s = .next t →
    t.trap = some r → TrapTaken r.cause r.value s t

/-- Which instruction can raise which exception: the table of 60_exceptions.md section 2 (its names and
several of its rows are the spec's decisions D4 and D6). -/
def Obligations.TrapCausesByInstruction : Prop :=
  ∀ (i : Instr) (s t : State) (r : TrapRecord), s.trap = none → exec i s = .next t →
    t.trap = some r → r.cause ∈ Claims.mayRaise i

/-! ## Invariants -/

/-- The invariant is kept by every step, from every state that has it: canonical memory, a pc that is a
multiple of 4 (10_state.md section 2), and trap records that are what the table of exceptions says. -/
def Obligations.StepKeepsInvariant : Prop :=
  ∀ s t : State, s.Inv → step s = .next t → t.Inv

/-- The invariant holds at the start, for every InitRegs, RESET_PC, InitMem and EEHandler (10_state.md
section 8), and so at reset. -/
def Obligations.InvariantAtStart : Prop :=
  (∀ (image : HartImage) (ee : List HartImage) (cfg : Config), Memory.wf image.mem →
    (∀ e ∈ ee, Memory.wf e.mem) → (State.start image ee cfg).Inv) ∧
  State.reset.Inv

/-- The state at the start (10_state.md section 8; decision D21) for every choice of the open
parameters, and the values the model names for them at reset: 0 in x1 to x31, pc 0x00001000, memory
reading 0 (logs 4 to 7, the model's choices). -/
def Obligations.StartState : Prop :=
  (∀ (image : HartImage) (ee : List HartImage) (cfg : Config),
    let s := State.start image ee cfg
    s.x 0#5 = 0#32 ∧
    (∀ (q : Reg) (h : q ≠ 0#5), s.x q = image.regs[q.toNat - 1]'(by have := q.isLt; omega)) ∧
    s.pc.toNat = 4 * image.pcIndex.toNat ∧ s.mem = image.mem ∧ s.written = [] ∧ s.trap = none ∧
    s.io = [] ∧ s.ee = ee ∧ s.cfg = cfg) ∧
  (∀ q : Reg, State.reset.x q = 0#32) ∧ State.reset.pc = 0x00001000#32 ∧
  (∀ a : Nat, State.reset.mem.read a = 0#8) ∧
  State.reset.written = [] ∧ State.reset.trap = none ∧ State.reset.io = [] ∧ State.reset.ee = [] ∧
  State.reset.cfg.endian = .little ∧ State.reset.cfg.misaligned = .trap ∧
  State.reset.cfg.fetchAfterStore = .refuse ∧
  (∀ (a : Word) (k : AccessKind), kindAt State.reset.cfg.memMap a = .main ∧
    accessibleAt State.reset.cfg.memMap k a = true)

/-- What no step takes back: the parameters stay, Written and the log of I/O accesses only grow, and
the EE's replies are used in their order (10_state.md section 9; the log and the replies are the
model's own, logs 2, 3 and 9). -/
def Obligations.StepKeepsHistory : Prop :=
  ∀ s t : State, step s = .next t →
    t.cfg = s.cfg ∧ (∀ a ∈ s.written, a ∈ t.written) ∧ s.io <+: t.io ∧
    (t.ee = s.ee ∨ ∃ image, s.ee = image :: t.ee)

/-- Only stores change memory ("RV32I is a load-store architecture", 42_load_store.md section 1): on any
other instruction every byte reads as before and Written is the same. -/
def Obligations.OnlyStoresChangeMemory : Prop :=
  ∀ (i : Instr) (s t : State), Claims.isStore i = false → exec i s = .next t → SameMemory s t

/-- Only loads read memory (42_load_store.md section 1): what any other instruction does to the
registers, the pc, the trap record and the I/O log does not depend on what memory holds. -/
def Obligations.OnlyLoadsReadMemory : Prop :=
  ∀ (i : Instr) (s t : State) (m : Memory), Claims.isLoad i = false → exec i s = .next t →
    ∃ u, exec i { s with mem := m } = .next u ∧
      u.regs = t.regs ∧ u.pc = t.pc ∧ u.trap = t.trap ∧ u.io = t.io ∧ u.written = t.written

/-- Only jumps and branches set the pc to a target (10_state.md section 2): any other instruction that
does not trap advances it by 4 modulo 2^32. -/
def Obligations.OnlyTransfersRedirect : Prop :=
  ∀ (i : Instr) (s t : State), Claims.isTransfer i = false → s.trap = none → exec i s = .next t →
    t.trap = none → t.pc = s.pc + 4#32

/-- "No instruction reads the pc except AUIPC, JAL, JALR and the six branches" (10_state.md section 2):
what any other instruction does to registers, memory, Written and the I/O log, and whether and why it
traps, is the same at every pc. -/
def Obligations.OnlyTransfersAndAuipcReadPc : Prop :=
  ∀ (i : Instr) (s t : State) (p : Word), Claims.isTransfer i = false →
    (∀ rd imm, i ≠ .auipc rd imm) → s.trap = none → exec i s = .next t →
    ∃ u, exec i (s.setPc p) = .next u ∧ u.regs = t.regs ∧ u.mem = t.mem ∧ u.written = t.written ∧
      u.io = t.io ∧ u.trap.map (·.cause) = t.trap.map (·.cause)

/-- The registers (10_state.md section 1): `x0` reads 0 and discards writes; any other register reads
what was last written to it, and a write changes no other register. -/
def Obligations.RegisterFileBehaves : Prop :=
  ∀ (s : State) (r q : Reg) (v : Word),
    s.x 0#5 = 0#32 ∧ s.setX 0#5 v = s ∧
    (r ≠ 0#5 → (s.setX r v).x r = v) ∧ (q ≠ r → (s.setX r v).x q = s.x q)

/-- HINTs (R200): an integer computational instruction with `rd = x0` changes no architecturally visible
state except that the pc advances. -/
def Obligations.HintsOnlyAdvancePc : Prop :=
  ∀ (i : Instr) (s : State), computationalDest i = some 0#5 →
    ∃ t, exec i s = .next t ∧ Continues (s.pc + 4#32) s t

/-! ## Integer computational instructions -/

/-- ADDI (R104): the signed sum, modulo 2^32. -/
def Obligations.AddiAddsSignedImmediate : Prop :=
  Claims.ComputesImmediate 0x00000013#32 .addi
    (fun x imm v => v = BitVec.ofInt 32 (x.toInt + imm.toInt))

/-- SLTI (R105) and SLTIU (R106): 1 or 0; SLTIU extends the sign first and then compares unsigned. -/
def Obligations.SetLessThanImmediate : Prop :=
  Claims.ComputesImmediate 0x00002013#32 .slti
    (fun x imm v => v = if x.toInt < imm.toInt then 1#32 else 0#32) ∧
  Claims.ComputesImmediate 0x00003013#32 .sltiu
    (fun x imm v => v = if (x.toNat : Int) < imm.toInt % 2 ^ 32 then 1#32 else 0#32)

/-- ANDI (R107), ORI (R108) and XORI (R109), bit by bit: above bit 11 the immediate repeats its sign. -/
def Obligations.LogicalImmediates : Prop :=
  Claims.ComputesImmediate 0x00007013#32 .andi
    (fun x imm v => ∀ k < 32, v.getLsbD k = (x.getLsbD k && imm.getLsbD (min k 11))) ∧
  Claims.ComputesImmediate 0x00006013#32 .ori
    (fun x imm v => ∀ k < 32, v.getLsbD k = (x.getLsbD k || imm.getLsbD (min k 11))) ∧
  Claims.ComputesImmediate 0x00004013#32 .xori
    (fun x imm v => ∀ k < 32, v.getLsbD k = (x.getLsbD k ^^ imm.getLsbD (min k 11)))

/-- SLLI (R110), SRLI (R111) and SRAI (R112) as arithmetic: SRAI rounds toward minus infinity. Beside
them, no other `inst[31:25]` makes an instruction with their funct3. -/
def Obligations.ShiftImmediates : Prop :=
  Claims.ComputesShift 0x00001013#32 .slli
    (fun x n v => v.toNat = x.toNat * 2 ^ n % 2 ^ 32) ∧
  Claims.ComputesShift 0x00005013#32 .srli (fun x n v => v.toNat = x.toNat / 2 ^ n) ∧
  Claims.ComputesShift 0x40005013#32 .srai (fun x n v => v.toInt = x.toInt / (2 ^ n : Int)) ∧
  (∀ w : Word, w &&& 0x0000707F#32 = 0x00001013#32 → w.toNat / 2 ^ 25 ≠ 0 →
    ∃ e, decode w = .error e) ∧
  (∀ w : Word, w &&& 0x0000707F#32 = 0x00005013#32 → w.toNat / 2 ^ 25 ≠ 0 →
    w.toNat / 2 ^ 25 ≠ 0x20 → ∃ e, decode w = .error e)

/-- LUI (R113) and AUIPC (R114). -/
def Obligations.UpperImmediates : Prop :=
  Claims.NamesWords 0x0000007F#32 0x00000037#32 (fun w => .lui (rdField w) (immUField w)) ∧
  Claims.NamesWords 0x0000007F#32 0x00000017#32 (fun w => .auipc (rdField w) (immUField w)) ∧
  (∀ (rd : Reg) (imm : BitVec 20) (s : State), ∃ t v,
    exec (.lui rd imm) s = .next t ∧ Computes rd v s t ∧ v.toNat = imm.toNat * 2 ^ 12) ∧
  (∀ (rd : Reg) (imm : BitVec 20) (s : State), ∃ t v,
    exec (.auipc rd imm) s = .next t ∧ Computes rd v s t ∧
    v.toNat = (s.pc.toNat + imm.toNat * 2 ^ 12) % 2 ^ 32)

/-- ADD (R115) and SUB (R123): modulo 2^32, read as signed or as unsigned. -/
def Obligations.AddAndSubtract : Prop :=
  Claims.ComputesRegisters 0x00000033#32 .add
    (fun x y v => v.toNat = (x.toNat + y.toNat) % 2 ^ 32 ∧
      v = BitVec.ofInt 32 (x.toInt + y.toInt)) ∧
  Claims.ComputesRegisters 0x40000033#32 .sub
    (fun x y v => v.toNat = (x.toNat + 2 ^ 32 - y.toNat) % 2 ^ 32 ∧
      v = BitVec.ofInt 32 (x.toInt - y.toInt))

/-- SLT (R116) and SLTU (R117). -/
def Obligations.SetLessThan : Prop :=
  Claims.ComputesRegisters 0x00002033#32 .slt
    (fun x y v => v = if x.toInt < y.toInt then 1#32 else 0#32) ∧
  Claims.ComputesRegisters 0x00003033#32 .sltu
    (fun x y v => v = if x.toNat < y.toNat then 1#32 else 0#32)

/-- AND (R118), OR (R119) and XOR (R120), bit by bit. -/
def Obligations.LogicalRegisters : Prop :=
  Claims.ComputesRegisters 0x00007033#32 .and
    (fun x y v => ∀ k < 32, v.getLsbD k = (x.getLsbD k && y.getLsbD k)) ∧
  Claims.ComputesRegisters 0x00006033#32 .or
    (fun x y v => ∀ k < 32, v.getLsbD k = (x.getLsbD k || y.getLsbD k)) ∧
  Claims.ComputesRegisters 0x00004033#32 .xor
    (fun x y v => ∀ k < 32, v.getLsbD k = (x.getLsbD k ^^ y.getLsbD k))

/-- SLL (R121), SRL (R122) and SRA (R124): the amount is the low five bits of `x[rs2]`. -/
def Obligations.ShiftRegisters : Prop :=
  Claims.ComputesRegisters 0x00001033#32 .sll
    (fun x y v => v.toNat = x.toNat * 2 ^ (y.toNat % 32) % 2 ^ 32) ∧
  Claims.ComputesRegisters 0x00005033#32 .srl
    (fun x y v => v.toNat = x.toNat / 2 ^ (y.toNat % 32)) ∧
  Claims.ComputesRegisters 0x40005033#32 .sra
    (fun x y v => v.toInt = x.toInt / (2 ^ (y.toNat % 32) : Int))

/-- The pseudo-instructions MV (R125), SEQZ (R126), NOT (R127), SNEZ (R128) and NOP (R129). -/
def Obligations.PseudoInstructions : Prop :=
  (∀ (rd rs : Reg) (s : State),
    (∃ t, exec (pseudoMv rd rs) s = .next t ∧ Computes rd (s.x rs) s t) ∧
    (∃ t, exec (pseudoSeqz rd rs) s = .next t ∧
      Computes rd (if s.x rs = 0#32 then 1#32 else 0#32) s t) ∧
    (∃ t, exec (pseudoNot rd rs) s = .next t ∧ Computes rd (s.x rs ^^^ 0xFFFFFFFF#32) s t) ∧
    (∃ t, exec (pseudoSnez rd rs) s = .next t ∧
      Computes rd (if s.x rs ≠ 0#32 then 1#32 else 0#32) s t)) ∧
  (encode nop = 0x00000013#32 ∧
    ∀ s : State, ∃ t, exec nop s = .next t ∧ Continues (s.pc + 4#32) s t)

/-- Building a constant (40_integer_computational.md section 5, marked derived): LUI and ADDI with the two
parts of any 32-bit value leave that value, and the high part is bits 31..12, plus 1 when bit 11 is
set. -/
def Obligations.LuiAddiBuildsEveryConstant : Prop :=
  ∀ (c : Word) (rd : Reg) (s : State),
    (highPart c).toNat = (c.toNat / 2 ^ 12 + c.toNat / 2 ^ 11 % 2) % 2 ^ 20 ∧
    ∃ t u, exec (.lui rd (highPart c)) s = .next t ∧ exec (.addi rd rd (lowPart c)) t = .next u ∧
      WritesOnly rd c s u ∧ u.pc = s.pc + 8#32 ∧ SameMemory s u ∧ u.io = s.io ∧ SameOutside s u

/-! ## Control transfer -/

/-- JAL (R141): to the pc plus the signed offset with the link, or the misaligned trap on the jump
itself, raised before the register is written. -/
def Obligations.JalJumpsAndLinks : Prop :=
  Claims.NamesWords 0x0000007F#32 0x0000006F#32 (fun w => .jal (rdField w) (immJField w)) ∧
  ∀ (rd : Reg) (imm : BitVec 21) (s : State),
    let target : Word := BitVec.ofInt 32 (s.pc.toInt + imm.toInt)
    (target.toNat % 4 = 0 →
      ∃ t, exec (.jal rd imm) s = .next t ∧ Claims.JumpsTo rd target s t) ∧
    (target.toNat % 4 ≠ 0 →
      ∃ t, exec (.jal rd imm) s = .next t ∧ TrapTaken .instructionAddressMisaligned target s t)

/-- JALR (41_control_transfer.md section 2; that bit 0 is cleared is decision D12): to the even address at
or below the sum, computed from the old `x[rs1]`, with the link, or the misaligned trap. -/
def Obligations.JalrJumpsAndLinks : Prop :=
  Claims.NamesWords 0x0000707F#32 0x00000067#32
    (fun w => .jalr (rdField w) (rs1Field w) (immIField w)) ∧
  ∀ (rd rs1 : Reg) (imm : BitVec 12) (s : State),
    let sum : Word := BitVec.ofInt 32 ((s.x rs1).toInt + imm.toInt)
    let target : Word := BitVec.ofNat 32 (2 * (sum.toNat / 2))
    (target.toNat % 4 = 0 →
      ∃ t, exec (.jalr rd rs1 imm) s = .next t ∧ Claims.JumpsTo rd target s t) ∧
    (target.toNat % 4 ≠ 0 →
      ∃ t, exec (.jalr rd rs1 imm) s = .next t ∧
        TrapTaken .instructionAddressMisaligned target s t)

/-- Far jumps (41_control_transfer.md section 2, marked derived): LUI and JALR through one register reach
any multiple of 4, AUIPC and JALR any multiple of 4 relative to the AUIPC, and the link is the address
after the JALR. -/
def Obligations.FarJumpsReachEveryTarget : Prop :=
  ∀ (rd : Reg) (c : Word) (s : State), rd ≠ 0#5 →
    (c.toNat % 4 = 0 → ∃ t u, exec (.lui rd (highPart c)) s = .next t ∧
      exec (.jalr rd rd (lowPart c)) t = .next u ∧ u.pc = c ∧ WritesOnly rd (s.pc + 8#32) s u ∧
      SameMemory s u ∧ u.io = s.io ∧ SameOutside s u) ∧
    ((s.pc + c).toNat % 4 = 0 → ∃ t u, exec (.auipc rd (highPart c)) s = .next t ∧
      exec (.jalr rd rd (lowPart c)) t = .next u ∧ u.pc = s.pc + c ∧
      WritesOnly rd (s.pc + 8#32) s u ∧ SameMemory s u ∧ u.io = s.io ∧ SameOutside s u)

/-- BEQ (R147) and BNE (R148). -/
def Obligations.EqualityBranches : Prop :=
  Claims.BranchesWhen 0x00000063#32 .beq (fun x y => x = y) ∧
  Claims.BranchesWhen 0x00001063#32 .bne (fun x y => x ≠ y)

/-- BLT (R149) and BGE (R151). -/
def Obligations.SignedBranches : Prop :=
  Claims.BranchesWhen 0x00004063#32 .blt (fun x y => x.toInt < y.toInt) ∧
  Claims.BranchesWhen 0x00005063#32 .bge (fun x y => x.toInt ≥ y.toInt)

/-- BLTU (R150) and BGEU (R152). -/
def Obligations.UnsignedBranches : Prop :=
  Claims.BranchesWhen 0x00006063#32 .bltu (fun x y => x.toNat < y.toNat) ∧
  Claims.BranchesWhen 0x00007063#32 .bgeu (fun x y => x.toNat ≥ y.toNat)

/-- One BLTU checks a signed index against a nonnegative bound (41_control_transfer.md section 4): it is
taken exactly when 0 ≤ index < bound. -/
def Obligations.BltuChecksBounds : Prop :=
  ∀ (rs1 rs2 : Reg) (imm : BitVec 13) (s : State),
    let target : Word := BitVec.ofInt 32 (s.pc.toInt + imm.toInt)
    0 ≤ (s.x rs2).toInt → target.toNat % 4 = 0 →
    ∃ t, exec (.bltu rs1 rs2 imm) s = .next t ∧
      Continues (if 0 ≤ (s.x rs1).toInt ∧ (s.x rs1).toInt < (s.x rs2).toInt then target
        else s.pc + 4#32) s t

/-! ## Loads and stores -/

/-- LW (R161). -/
def Obligations.LoadWord : Prop :=
  Claims.Loads 0x00002003#32 .lw 4 (fun _ => True) ∧
  Claims.TrapsMisaligned .lw 4 .loadAddressMisaligned

/-- LH (R162) extends the sign of the halfword, LHU (R163) extends it with zeros. -/
def Obligations.LoadHalfwords : Prop :=
  Claims.Loads 0x00001003#32 .lh 2 (fun v => v.toInt = (v.setWidth 16).toInt) ∧
  Claims.Loads 0x00005003#32 .lhu 2 (fun v => v.toNat < 2 ^ 16) ∧
  Claims.TrapsMisaligned .lh 2 .loadAddressMisaligned ∧
  Claims.TrapsMisaligned .lhu 2 .loadAddressMisaligned

/-- LB (R164) extends the sign of the byte, LBU (R165) extends it with zeros; neither is ever
misaligned. -/
def Obligations.LoadBytes : Prop :=
  Claims.Loads 0x00000003#32 .lb 1 (fun v => v.toInt = (v.setWidth 8).toInt) ∧
  Claims.Loads 0x00004003#32 .lbu 1 (fun v => v.toNat < 2 ^ 8)

/-- SW (R166). -/
def Obligations.StoreWord : Prop :=
  Claims.Stores 0x00002023#32 .sw 4 ∧ Claims.TrapsMisaligned .sw 4 .storeAddressMisaligned

/-- SH (R167) and SB (R168): the higher bits of `x[rs2]` are ignored. -/
def Obligations.StoreHalfwordAndByte : Prop :=
  Claims.Stores 0x00001023#32 .sh 2 ∧ Claims.Stores 0x00000023#32 .sb 1 ∧
  Claims.TrapsMisaligned .sh 2 .storeAddressMisaligned

/-- A load of the same width at the same address returns what was stored, in either byte order
(20_memory.md section 3): the word, the low halfword or the low byte. -/
def Obligations.LoadAfterStore : Prop :=
  ∀ (n : Nat) (st ld : Reg → Reg → BitVec 12 → Instr),
    ((n = 4 ∧ st = .sw ∧ ld = .lw) ∨ (n = 2 ∧ st = .sh ∧ ld = .lhu) ∨
      (n = 1 ∧ st = .sb ∧ ld = .lbu)) →
    ∀ (rs2 rs1 rd : Reg) (imm : BitVec 12) (s : State),
      let a := effectiveAddress rs1 imm s
      a.toNat % n = 0 → accessible s.cfg.memMap .store a n = true →
      accessible s.cfg.memMap .load a n = true → touchesIo s.cfg.memMap a n = false →
      ∃ t u, exec (st rs2 rs1 imm) s = .next t ∧ exec (ld rd rs1 imm) t = .next u ∧
        WritesOnly rd (BitVec.ofNat 32 ((s.x rs2).toNat % 2 ^ (8 * n))) s u ∧ SameMemory t u

/-- Byte-address invariance (20_memory.md section 3): a byte stored in one endianness is what a byte load of that address
returns in any, and a byte load at `k` above a stored word returns the byte the word's byte order
placed there. -/
def Obligations.ByteAddressInvariance : Prop :=
  ∀ (rs2 rs1 : Reg) (imm : BitVec 12) (s : State),
    let a := effectiveAddress rs1 imm s
    (accessible s.cfg.memMap .store a 1 = true → accessible s.cfg.memMap .load a 1 = true →
      touchesIo s.cfg.memMap a 1 = false →
      ∃ t, exec (.sb rs2 rs1 imm) s = .next t ∧
        ∀ (rd : Reg) (e : Endian), ∃ u,
          exec (.lbu rd rs1 imm) (Claims.withEndian e t) = .next u ∧
          WritesOnly rd (BitVec.ofNat 32 ((s.x rs2).toNat % 2 ^ 8)) s u) ∧
    (a.toNat % 4 = 0 → accessible s.cfg.memMap .store a 4 = true →
      accessible s.cfg.memMap .load a 4 = true → touchesIo s.cfg.memMap a 4 = false →
      ∃ t, exec (.sw rs2 rs1 imm) s = .next t ∧
        ∀ (rd base : Reg) (off : BitVec 12) (e : Endian) (k : Nat), k < 4 →
          effectiveAddress base off t = a + BitVec.ofNat 32 k → ∃ u,
          exec (.lbu rd base off) (Claims.withEndian e t) = .next u ∧
          WritesOnly rd
            (((s.x rs2).extractLsb' (8 * byteOrder s.cfg.endian 4 k) 8).setWidth 32) s u)

/-! ## Memory ordering and system -/

/-- Every word with opcode 0001111 and funct3 000 is a fence, FENCE.TSO or FENCE with all its fields, and
it advances the pc and does nothing else (43_memory_ordering.md; that one hart observes no ordering and
that reserved fields are ignored are decisions D8 and D11). -/
def Obligations.FencesOnlyAdvancePc : Prop :=
  (∀ w : Word, w &&& 0x0000707F#32 = 0x0000000F#32 →
    decode w = if w &&& 0xFFF0707F#32 = 0x8330000F#32 then .ok (.fenceTso (rs1Field w) (rdField w))
      else .ok (.fence (w.extractLsb' 28 4) (w.extractLsb' 24 4) (w.extractLsb' 20 4)
        (rs1Field w) (rdField w))) ∧
  (∀ (rs1 rd : Reg) (s : State), ∃ t,
    exec (.fenceTso rs1 rd) s = .next t ∧ Continues (s.pc + 4#32) s t) ∧
  (∀ (fm pred succ : BitVec 4) (rs1 rd : Reg) (s : State), ∃ t,
    exec (.fence fm pred succ rs1 rd) s = .next t ∧ Continues (s.pc + 4#32) s t)

/-- ECALL (44_system.md): it always raises EnvironmentCall with value 0, changes no register, no byte and
not the pc; in the decided configuration (decision D16) the run ends there, and an EE that resumes chooses
the pc. The clauses on the EE's replies rest on their being a list in the state, the model's choice of
log 2. -/
def Obligations.EcallRaisesEnvironmentCall : Prop :=
  Claims.NamesWords 0xFFFFFFFF#32 0x00000073#32 (fun _ => .ecall) ∧
  ∀ s : State, ∃ t, exec .ecall s = .next t ∧ TrapTaken .environmentCall 0#32 s t ∧
    trapKind .environmentCall = .requested ∧
    (s.ee = [] → step t = .fault (.runEnded { cause := .environmentCall, pc := s.pc, value := 0#32 })) ∧
    (∀ image rest, s.ee = image :: rest → ∃ u, step t = .next u ∧ u.pc = image.pc)

/-- EBREAK (44_system.md): it always raises Breakpoint, changes no register, no byte and not the pc. That
the recorded value is the pc is marked general knowledge in the spec (log 14), that the trap is a requested
one is decision D16 (60_exceptions.md section 1). Resumption is the EE's choice; the clauses on its replies
rest on their being a list in the state, the model's choice of log 2. -/
def Obligations.EbreakRaisesBreakpoint : Prop :=
  Claims.NamesWords 0xFFFFFFFF#32 0x00100073#32 (fun _ => .ebreak) ∧
  ∀ s : State, ∃ t, exec .ebreak s = .next t ∧ TrapTaken .breakpoint s.pc s t ∧
    trapKind .breakpoint = .requested ∧
    (s.ee = [] → step t = .fault (.runEnded { cause := .breakpoint, pc := s.pc, value := s.pc })) ∧
    (∀ image rest, s.ee = image :: rest → ∃ u, step t = .next u ∧ u.pc = image.pc)
end

