-- ==== Sys2Proof/Laws/Encoding.lean ====
section
/-! SUPPORT. The fields of the encoders' words: what each field function reads from a word that an
encoding function of R95 built. -/

namespace Sys2Proof

/-! ## R (R75) -/

@[simp] theorem encR_opcode (f7 : BitVec 7) (rs2 rs1 : Reg) (f3 : BitVec 3) (rd : Reg) (op : BitVec 7) :
    (encR f7 rs2 rs1 f3 rd op).extractLsb' 0 7 = op := by grind [encR]

@[simp] theorem encR_funct3 (f7 : BitVec 7) (rs2 rs1 : Reg) (f3 : BitVec 3) (rd : Reg) (op : BitVec 7) :
    (encR f7 rs2 rs1 f3 rd op).extractLsb' 12 3 = f3 := by grind [encR]

@[simp] theorem encR_funct7 (f7 : BitVec 7) (rs2 rs1 : Reg) (f3 : BitVec 3) (rd : Reg) (op : BitVec 7) :
    (encR f7 rs2 rs1 f3 rd op).extractLsb' 25 7 = f7 := by grind [encR]

@[simp] theorem rdField_encR (f7 : BitVec 7) (rs2 rs1 : Reg) (f3 : BitVec 3) (rd : Reg) (op : BitVec 7) :
    rdField (encR f7 rs2 rs1 f3 rd op) = rd := by grind [encR, rdField]

@[simp] theorem rs1Field_encR (f7 : BitVec 7) (rs2 rs1 : Reg) (f3 : BitVec 3) (rd : Reg) (op : BitVec 7) :
    rs1Field (encR f7 rs2 rs1 f3 rd op) = rs1 := by grind [encR, rs1Field]

@[simp] theorem rs2Field_encR (f7 : BitVec 7) (rs2 rs1 : Reg) (f3 : BitVec 3) (rd : Reg) (op : BitVec 7) :
    rs2Field (encR f7 rs2 rs1 f3 rd op) = rs2 := by grind [encR, rs2Field]

@[simp] theorem shamtField_encR (f7 : BitVec 7) (sh rs1 : Reg) (f3 : BitVec 3) (rd : Reg) (op : BitVec 7) :
    shamtField (encR f7 sh rs1 f3 rd op) = sh := by grind [encR, shamtField]

/-! ## I (R75, R76) -/

@[simp] theorem encI_opcode (imm : BitVec 12) (rs1 : Reg) (f3 : BitVec 3) (rd : Reg) (op : BitVec 7) :
    (encI imm rs1 f3 rd op).extractLsb' 0 7 = op := by grind [encI]

@[simp] theorem encI_funct3 (imm : BitVec 12) (rs1 : Reg) (f3 : BitVec 3) (rd : Reg) (op : BitVec 7) :
    (encI imm rs1 f3 rd op).extractLsb' 12 3 = f3 := by grind [encI]

@[simp] theorem rdField_encI (imm : BitVec 12) (rs1 : Reg) (f3 : BitVec 3) (rd : Reg) (op : BitVec 7) :
    rdField (encI imm rs1 f3 rd op) = rd := by grind [encI, rdField]

@[simp] theorem rs1Field_encI (imm : BitVec 12) (rs1 : Reg) (f3 : BitVec 3) (rd : Reg) (op : BitVec 7) :
    rs1Field (encI imm rs1 f3 rd op) = rs1 := by grind [encI, rs1Field]

@[simp] theorem immIField_encI (imm : BitVec 12) (rs1 : Reg) (f3 : BitVec 3) (rd : Reg) (op : BitVec 7) :
    immIField (encI imm rs1 f3 rd op) = imm := by grind [encI, immIField]

/-! ## S (R75, R77) -/

@[simp] theorem encS_opcode (imm : BitVec 12) (rs2 rs1 : Reg) (f3 : BitVec 3) (op : BitVec 7) :
    (encS imm rs2 rs1 f3 op).extractLsb' 0 7 = op := by grind [encS]

@[simp] theorem encS_funct3 (imm : BitVec 12) (rs2 rs1 : Reg) (f3 : BitVec 3) (op : BitVec 7) :
    (encS imm rs2 rs1 f3 op).extractLsb' 12 3 = f3 := by grind [encS]

@[simp] theorem rs1Field_encS (imm : BitVec 12) (rs2 rs1 : Reg) (f3 : BitVec 3) (op : BitVec 7) :
    rs1Field (encS imm rs2 rs1 f3 op) = rs1 := by grind [encS, rs1Field]

@[simp] theorem rs2Field_encS (imm : BitVec 12) (rs2 rs1 : Reg) (f3 : BitVec 3) (op : BitVec 7) :
    rs2Field (encS imm rs2 rs1 f3 op) = rs2 := by grind [encS, rs2Field]

@[simp] theorem immSField_encS (imm : BitVec 12) (rs2 rs1 : Reg) (f3 : BitVec 3) (op : BitVec 7) :
    immSField (encS imm rs2 rs1 f3 op) = imm := by
  have h1 : (encS imm rs2 rs1 f3 op).extractLsb' 25 7 = imm.extractLsb' 5 7 := by grind [encS]
  have h2 : (encS imm rs2 rs1 f3 op).extractLsb' 7 5 = imm.extractLsb' 0 5 := by grind [encS]
  rw [immSField, h1, h2]
  grind

/-! ## B (R75, R78) -/

@[simp] theorem encB_opcode (imm : BitVec 13) (rs2 rs1 : Reg) (f3 : BitVec 3) (op : BitVec 7) :
    (encB imm rs2 rs1 f3 op).extractLsb' 0 7 = op := by grind [encB]

@[simp] theorem encB_funct3 (imm : BitVec 13) (rs2 rs1 : Reg) (f3 : BitVec 3) (op : BitVec 7) :
    (encB imm rs2 rs1 f3 op).extractLsb' 12 3 = f3 := by grind [encB]

@[simp] theorem rs1Field_encB (imm : BitVec 13) (rs2 rs1 : Reg) (f3 : BitVec 3) (op : BitVec 7) :
    rs1Field (encB imm rs2 rs1 f3 op) = rs1 := by grind [encB, rs1Field]

@[simp] theorem rs2Field_encB (imm : BitVec 13) (rs2 rs1 : Reg) (f3 : BitVec 3) (op : BitVec 7) :
    rs2Field (encB imm rs2 rs1 f3 op) = rs2 := by grind [encB, rs2Field]

/-- The pieces of the B-immediate come back together, but for bit 0, which reads 0. -/
theorem immBField_encB (imm : BitVec 13) (rs2 rs1 : Reg) (f3 : BitVec 3) (op : BitVec 7) :
    immBField (encB imm rs2 rs1 f3 op) = imm.extractLsb' 1 12 ++ 0#1 := by
  have h1 : (encB imm rs2 rs1 f3 op).extractLsb' 31 1 = imm.extractLsb' 12 1 := by grind [encB]
  have h2 : (encB imm rs2 rs1 f3 op).extractLsb' 7 1 = imm.extractLsb' 11 1 := by grind [encB]
  have h3 : (encB imm rs2 rs1 f3 op).extractLsb' 25 6 = imm.extractLsb' 5 6 := by grind [encB]
  have h4 : (encB imm rs2 rs1 f3 op).extractLsb' 8 4 = imm.extractLsb' 1 4 := by grind [encB]
  rw [immBField, h1, h2, h3, h4]
  grind

/-! ## U and J (R75, R79, R80) -/

@[simp] theorem encU_opcode (imm : BitVec 20) (rd : Reg) (op : BitVec 7) :
    (encU imm rd op).extractLsb' 0 7 = op := by grind [encU]

@[simp] theorem rdField_encU (imm : BitVec 20) (rd : Reg) (op : BitVec 7) :
    rdField (encU imm rd op) = rd := by grind [encU, rdField]

@[simp] theorem immUField_encU (imm : BitVec 20) (rd : Reg) (op : BitVec 7) :
    immUField (encU imm rd op) = imm := by grind [encU, immUField]

@[simp] theorem encJ_opcode (imm : BitVec 21) (rd : Reg) (op : BitVec 7) :
    (encJ imm rd op).extractLsb' 0 7 = op := by grind [encJ]

@[simp] theorem rdField_encJ (imm : BitVec 21) (rd : Reg) (op : BitVec 7) :
    rdField (encJ imm rd op) = rd := by grind [encJ, rdField]

/-- The pieces of the J-immediate come back together, but for bit 0, which reads 0. -/
theorem immJField_encJ (imm : BitVec 21) (rd : Reg) (op : BitVec 7) :
    immJField (encJ imm rd op) = imm.extractLsb' 1 20 ++ 0#1 := by
  have h1 : (encJ imm rd op).extractLsb' 31 1 = imm.extractLsb' 20 1 := by grind [encJ]
  have h2 : (encJ imm rd op).extractLsb' 12 8 = imm.extractLsb' 12 8 := by grind [encJ]
  have h3 : (encJ imm rd op).extractLsb' 20 1 = imm.extractLsb' 11 1 := by grind [encJ]
  have h4 : (encJ imm rd op).extractLsb' 21 10 = imm.extractLsb' 1 10 := by grind [encJ]
  rw [immJField, h1, h2, h3, h4]
  grind

/-- An immediate whose bit 0 is clear is its other bits with a 0 below them. -/
theorem even_immediate {n : Nat} (imm : BitVec (n + 1)) (h : imm.getLsbD 0 = false) :
    imm.extractLsb' 1 n ++ 0#1 = imm := by
  ext i hi
  cases i with
  | zero => simpa [BitVec.getElem_append] using h.symm
  | succ i => simp [BitVec.getElem_append, Nat.add_comm 1 i, BitVec.getLsbD_eq_getElem hi]

/-! ## Bytes (R48, R72) -/

/-- The bytes of a word in memory are the bytes of the word. -/
@[simp] theorem wordOfParcels_parcelBytes (w : Word) :
    wordOfParcels (w.extractLsb' 0 8) (w.extractLsb' 8 8) (w.extractLsb' 16 8) (w.extractLsb' 24 8)
      = w := by
  grind [wordOfParcels]

end Sys2Proof
end

