-- ==== Sys2Proof/Laws/Memory.lean ====
section
/-! SUPPORT. The laws of the bytes of memory and of Written: read after write, and that every operation
keeps the canonical form. -/

namespace Sys2Proof.Machine

/-! ## One byte -/

theorem read_others (m : Memory) (a q : Nat) :
    Memory.read (m.filter (fun c => c.1 ≠ a)) q = if q = a then Memory.unlisted else Memory.read m q := by
  induction m with
  | nil => simp [Memory.read]
  | cons c rest ih =>
    by_cases hc : c.1 = a
    · simp only [hc, ne_eq, not_true_eq_false, decide_false, Bool.false_eq_true, not_false_eq_true,
        List.filter_cons_of_neg, Memory.read] at *
      rw [ih]
      split
      · rfl
      · rename_i hq
        simp [Ne.symm hq]
    · simp only [ne_eq, hc, not_false_eq_true, decide_true, List.filter_cons_of_pos, Memory.read]
      rw [ih]
      by_cases h1 : c.1 = q
      · simp [h1, show q ≠ a from h1 ▸ hc]
      · simp [h1]

theorem read_insert (m : Memory) (a : Nat) (b : Byte) (hm : ∀ c ∈ m, c.1 ≠ a) (q : Nat) :
    Memory.read (Memory.insert m a b) q = if q = a then b else Memory.read m q := by
  induction m with
  | nil => simp [Memory.insert, Memory.read, eq_comm]
  | cons c rest ih =>
    have hc : c.1 ≠ a := hm c (by simp)
    simp only [Memory.insert]
    split
    · simp [Memory.read, eq_comm]
    · simp only [Memory.read, ih (fun d hd => hm d (by simp [hd]))]
      by_cases h1 : c.1 = q
      · simp [h1, show q ≠ a from h1 ▸ hc]
      · simp [h1]

/-- Reading after writing one byte: that byte where it was written, the old one elsewhere. -/
theorem read_write (m : Memory) (a : Nat) (b : Byte) (q : Nat) :
    (Memory.write m a b).read q = if q = a then b else Memory.read m q := by
  unfold Memory.write
  split
  · rename_i hb
    rw [read_others, hb]
  · rw [read_insert _ _ _ (by simp), read_others]
    split <;> rfl

theorem wf_others {m : Memory} (h : Memory.wf m) (a : Nat) :
    Memory.wf (m.filter (fun c => c.1 ≠ a)) :=
  ⟨h.1.filter _, fun c hc => h.2 c (List.mem_filter.mp hc).1⟩

theorem mem_insert {m : Memory} {a : Nat} {b : Byte} {c : Host.Cell} :
    c ∈ Memory.insert m a b ↔ c = (a, b) ∨ c ∈ m := by
  induction m with
  | nil => simp [Memory.insert]
  | cons d rest ih =>
    simp only [Memory.insert]
    split
    · simp
    · simp only [List.mem_cons, ih]
      tauto

theorem wf_insert {m : Memory} (h : Memory.wf m) {a : Nat} {b : Byte} (hm : ∀ c ∈ m, c.1 ≠ a)
    (ha : a < 2 ^ 32) (hb : b ≠ Memory.unlisted) : Memory.wf (Memory.insert m a b) := by
  refine ⟨?_, fun c hc => ?_⟩
  · have hp := h.1
    clear h
    induction m with
    | nil => simp [Memory.insert]
    | cons d rest ih =>
      have hd : d.1 ≠ a := hm d (by simp)
      rw [List.pairwise_cons] at hp
      simp only [Memory.insert]
      split
      · rename_i had
        simp only [List.pairwise_cons, List.mem_cons, forall_eq_or_imp]
        exact ⟨⟨had, fun c hc => lt_trans had (hp.1 c hc)⟩, hp⟩
      · rename_i had
        rw [List.pairwise_cons]
        refine ⟨fun c hc => ?_, ih (fun c hc => hm c (by simp [hc])) hp.2⟩
        rcases mem_insert.mp hc with rfl | hc
        · show d.1 < a
          omega
        · exact hp.1 c hc
  · rcases mem_insert.mp hc with rfl | hc
    · exact ⟨ha, hb⟩
    · exact h.2 c hc

/-- A write of one byte keeps the canonical form. -/
theorem wf_write {m : Memory} (h : Memory.wf m) {a : Nat} (ha : a < 2 ^ 32) (b : Byte) :
    Memory.wf (Memory.write m a b) := by
  unfold Memory.write
  split
  · exact wf_others h a
  · rename_i hb
    exact wf_insert (wf_others h a) (by simp) ha hb

/-! ## The addresses of an access -/

@[simp] theorem span_length (a : Word) (n : Nat) : (span a n).length = n := by simp [span]

/-- An address an access touches is its address plus less than its size (R45). -/
theorem mem_span {a p : Word} {n : Nat} : p ∈ span a n ↔ ∃ k < n, p = a + BitVec.ofNat 32 k := by
  simp [span, eq_comm]

/-- An access of `n` bytes is accessible iff each of its bytes is (R52). -/
theorem accessible_iff {map : MemMap} {k : AccessKind} {a : Word} {n : Nat} :
    accessible map k a n = true ↔
      ∀ j < n, accessibleAt map k (a + BitVec.ofNat 32 j) = true := by
  simp [accessible, span, List.all_eq_true]

/-- An access touches I/O iff one of its bytes is I/O. -/
theorem touchesIo_iff {map : MemMap} {a : Word} {n : Nat} :
    touchesIo map a n = true ↔ ∃ j < n, kindAt map (a + BitVec.ofNat 32 j) = .io := by
  simp [touchesIo, span, List.any_eq_true]

/-- The addresses of an access of at most 2^32 bytes are different (R40). -/
theorem span_injective {a : Word} {i j : Nat} (hi : i < 2 ^ 32) (hj : j < 2 ^ 32)
    (h : a + BitVec.ofNat 32 i = a + BitVec.ofNat 32 j) : i = j := by
  have h' := congrArg BitVec.toNat ((BitVec.add_right_inj a).mp h)
  rw [BitVec.toNat_ofNat, BitVec.toNat_ofNat, Nat.mod_eq_of_lt hi, Nat.mod_eq_of_lt hj] at h'
  exact h'

/-! ## Written -/

theorem mem_addAddress {w : List Nat} {a q : Nat} : q ∈ addAddress w a ↔ q = a ∨ q ∈ w := by
  induction w with
  | nil => simp [addAddress]
  | cons d rest ih =>
    simp only [addAddress]
    split
    · simp
    · split
      · rename_i h
        simp [h]
      · simp only [List.mem_cons, ih]
        tauto

theorem sorted_addAddress {w : List Nat} (h : w.Pairwise (· < ·)) (a : Nat) :
    (addAddress w a).Pairwise (· < ·) := by
  induction w with
  | nil => simp [addAddress]
  | cons d rest ih =>
    have hp := h
    rw [List.pairwise_cons] at h
    simp only [addAddress]
    split
    · rename_i had
      simp only [List.pairwise_cons, List.mem_cons, forall_eq_or_imp]
      exact ⟨⟨had, fun c hc => lt_trans had (h.1 c hc)⟩, h⟩
    · split
      · exact hp
      · rw [List.pairwise_cons]
        refine ⟨fun c hc => ?_, ih h.2⟩
        rcases mem_addAddress.mp hc with rfl | hc
        · omega
        · exact h.1 c hc

theorem mem_foldl_addAddress {ps : List Word} {w : List Nat} {q : Nat} :
    q ∈ ps.foldl (fun acc p => addAddress acc p.toNat) w ↔ q ∈ w ∨ ∃ p ∈ ps, p.toNat = q := by
  induction ps generalizing w with
  | nil => simp
  | cons p rest ih =>
    simp only [List.foldl_cons, ih, mem_addAddress, List.mem_cons, exists_eq_or_imp, eq_comm (a := q)]
    tauto

/-- After an access every one of its addresses is in Written, and no other is new (R32). -/
theorem mem_addSpan {a : Word} {n : Nat} {w : List Nat} {q : Nat} :
    q ∈ addSpan a n w ↔ q ∈ w ∨ ∃ k < n, (a + BitVec.ofNat 32 k).toNat = q := by
  simp only [addSpan, mem_foldl_addAddress, mem_span]
  constructor
  · rintro (h | ⟨p, ⟨k, hk, rfl⟩, h⟩)
    · exact .inl h
    · exact .inr ⟨k, hk, h⟩
  · rintro (h | ⟨k, hk, h⟩)
    · exact .inl h
    · exact .inr ⟨_, ⟨k, hk, rfl⟩, h⟩

theorem sorted_addSpan {w : List Nat} (h : w.Pairwise (· < ·)) (a : Word) (n : Nat) :
    (addSpan a n w).Pairwise (· < ·) := by
  unfold addSpan
  generalize span a n = ps
  induction ps generalizing w with
  | nil => exact h
  | cons p rest ih => exact ih (sorted_addAddress h _)

/-! ## Several bytes -/

/-- Writing bytes keeps the canonical form. -/
theorem wf_writeBytes {map : MemMap} {m : Memory} (h : Memory.wf m) (a : Word) (bytes : List Byte) :
    Memory.wf (writeBytes map a bytes m) := by
  induction bytes generalizing a m with
  | nil => exact h
  | cons b rest ih =>
    simp only [writeBytes]
    apply ih
    split
    · exact h
    · exact wf_write h a.isLt b

/-- An address that no byte written lies at, or only bytes that go to I/O, reads as before. -/
theorem read_writeBytes_other (map : MemMap) (a : Word) (bytes : List Byte) (m : Memory) (q : Nat)
    (hq : ∀ k < bytes.length, (a + BitVec.ofNat 32 k).toNat = q →
      kindAt map (a + BitVec.ofNat 32 k) = .io) :
    (writeBytes map a bytes m).read q = m.read q := by
  induction bytes generalizing a m with
  | nil => rfl
  | cons b rest ih =>
    have h0 := hq 0 (by simp)
    have hshift : ∀ k, a + 1#32 + BitVec.ofNat 32 k = a + BitVec.ofNat 32 (k + 1) := by
      intro k
      rw [BitVec.add_assoc, BitVec.ofNat_add, BitVec.add_comm 1#32]
    simp only [writeBytes]
    rw [ih]
    · simp only [BitVec.add_zero] at h0
      split
      · rfl
      · rename_i hk
        rw [read_write, if_neg]
        exact fun e => hk (h0 e.symm)
    · intro k hk h
      rw [hshift] at h ⊢
      exact hq (k + 1) (by simpa using hk) h

/-- A byte written to an address that is not I/O is what that address reads as. -/
theorem read_writeBytes (map : MemMap) (a : Word) (bytes : List Byte) (m : Memory) (k : Nat)
    (hk : k < bytes.length) (hlen : bytes.length ≤ 2 ^ 32)
    (hkind : kindAt map (a + BitVec.ofNat 32 k) ≠ .io) :
    (writeBytes map a bytes m).read (a + BitVec.ofNat 32 k).toNat = bytes[k] := by
  induction bytes generalizing a m k with
  | nil => simp at hk
  | cons b rest ih =>
    have hshift : ∀ k, a + 1#32 + BitVec.ofNat 32 k = a + BitVec.ofNat 32 (k + 1) := by
      intro k
      rw [BitVec.add_assoc, BitVec.ofNat_add, BitVec.add_comm 1#32]
    simp only [List.length_cons] at hk hlen
    cases k with
    | zero =>
      simp only [BitVec.add_zero] at hkind ⊢
      simp only [writeBytes, hkind, if_false, List.getElem_cons_zero]
      rw [read_writeBytes_other, read_write, if_pos rfl]
      intro j hj h
      rw [hshift] at h
      have := span_injective (a := a) (i := j + 1) (j := 0) (by omega) (by omega)
        (BitVec.eq_of_toNat_eq (by simpa using h))
      omega
    | succ k =>
      have := ih (a + 1#32) (if kindAt map a = .io then m else m.write a.toNat b) k
        (by omega) (by omega) (by rwa [hshift])
      rw [hshift] at this
      simpa [writeBytes] using this

/-! ## Byte order -/

@[simp] theorem splitBytes_length (n : Nat) (v : Word) : (splitBytes n v).length = n := by
  induction n generalizing v with
  | zero => rfl
  | succ n ih => simp [splitBytes, ih]

/-- Byte `k` of a split value is the value's bits 8k+7..8k. -/
theorem splitBytes_getElem (n : Nat) (v : Word) (k : Nat) (hk : k < (splitBytes n v).length) :
    (splitBytes n v)[k] = v.extractLsb' (8 * k) 8 := by
  induction n generalizing v k with
  | zero => simp [splitBytes] at hk
  | succ n ih =>
    cases k with
    | zero =>
      simp only [splitBytes, List.getElem_cons_zero]
      ext i hi
      simp
    | succ k =>
      simp only [splitBytes, List.getElem_cons_succ]
      rw [ih]
      ext i hi
      simp only [BitVec.getElem_extractLsb', BitVec.getLsbD_ushiftRight]
      congr 1
      omega

/-- Bits 8k+7..8k of a joined value are its byte `k`, and 0 where there is none. -/
theorem joinBytes_extract (bytes : List Byte) (k : Nat) (hk : 8 * k + 8 ≤ 32) :
    (joinBytes bytes).extractLsb' (8 * k) 8 = bytes[k]?.getD 0#8 := by
  induction bytes generalizing k with
  | nil => simp [joinBytes]
  | cons b rest ih =>
    cases k with
    | zero =>
      ext i hi
      have h32 : i < 32 := by omega
      simp [joinBytes, hi, h32]
    | succ k =>
      have := ih k (by omega)
      simp only [List.getElem?_cons_succ]
      rw [← this]
      ext i hi
      have h1 : 8 * (k + 1) + i < 32 := by omega
      have h3 : ¬ 8 * (k + 1) + i < 8 := by omega
      simp only [joinBytes, BitVec.getElem_extractLsb', BitVec.getLsbD_or, BitVec.getLsbD_shiftLeft,
        BitVec.getLsbD_setWidth, h1, h3, decide_true, decide_false, Bool.not_false, Bool.true_and,
        BitVec.getLsbD_of_ge b (8 * (k + 1) + i) (by omega), Bool.and_false, Bool.or_false]
      congr 1
      omega

@[simp] theorem inMemoryOrder_length (e : Endian) (bytes : List Byte) :
    (inMemoryOrder e bytes).length = bytes.length := by
  cases e <;> simp [inMemoryOrder]

/-- Turning bytes into memory order and back changes nothing (R47). -/
@[simp] theorem inMemoryOrder_twice (e : Endian) (bytes : List Byte) :
    inMemoryOrder e (inMemoryOrder e bytes) = bytes := by
  cases e <;> simp [inMemoryOrder]

end Sys2Proof.Machine
end

