-- ==== Sys2Proof/Laws/State.lean ====
section
/-! SUPPORT. One lemma per field of the state per update, and what a register reads after each. -/

namespace Sys2Proof.Machine

@[simp] theorem setPc_regs (s : State) (t : Word) : (s.setPc t).regs = s.regs := rfl
@[simp] theorem setPc_pc (s : State) (t : Word) : (s.setPc t).pc = t := rfl
@[simp] theorem setPc_mem (s : State) (t : Word) : (s.setPc t).mem = s.mem := rfl
@[simp] theorem setPc_written (s : State) (t : Word) : (s.setPc t).written = s.written := rfl
@[simp] theorem setPc_trap (s : State) (t : Word) : (s.setPc t).trap = s.trap := rfl
@[simp] theorem setPc_io (s : State) (t : Word) : (s.setPc t).io = s.io := rfl
@[simp] theorem setPc_ee (s : State) (t : Word) : (s.setPc t).ee = s.ee := rfl
@[simp] theorem setPc_cfg (s : State) (t : Word) : (s.setPc t).cfg = s.cfg := rfl

@[simp] theorem setTrap_regs (s : State) (r : Option TrapRecord) : (s.setTrap r).regs = s.regs := rfl
@[simp] theorem setTrap_pc (s : State) (r : Option TrapRecord) : (s.setTrap r).pc = s.pc := rfl
@[simp] theorem setTrap_mem (s : State) (r : Option TrapRecord) : (s.setTrap r).mem = s.mem := rfl
@[simp] theorem setTrap_written (s : State) (r : Option TrapRecord) : (s.setTrap r).written = s.written := rfl
@[simp] theorem setTrap_trap (s : State) (r : Option TrapRecord) : (s.setTrap r).trap = r := rfl
@[simp] theorem setTrap_io (s : State) (r : Option TrapRecord) : (s.setTrap r).io = s.io := rfl
@[simp] theorem setTrap_ee (s : State) (r : Option TrapRecord) : (s.setTrap r).ee = s.ee := rfl
@[simp] theorem setTrap_cfg (s : State) (r : Option TrapRecord) : (s.setTrap r).cfg = s.cfg := rfl

@[simp] theorem setIo_regs (s : State) (log : List IoEvent) : (s.setIo log).regs = s.regs := rfl
@[simp] theorem setIo_pc (s : State) (log : List IoEvent) : (s.setIo log).pc = s.pc := rfl
@[simp] theorem setIo_mem (s : State) (log : List IoEvent) : (s.setIo log).mem = s.mem := rfl
@[simp] theorem setIo_written (s : State) (log : List IoEvent) : (s.setIo log).written = s.written := rfl
@[simp] theorem setIo_trap (s : State) (log : List IoEvent) : (s.setIo log).trap = s.trap := rfl
@[simp] theorem setIo_io (s : State) (log : List IoEvent) : (s.setIo log).io = log := rfl
@[simp] theorem setIo_ee (s : State) (log : List IoEvent) : (s.setIo log).ee = s.ee := rfl
@[simp] theorem setIo_cfg (s : State) (log : List IoEvent) : (s.setIo log).cfg = s.cfg := rfl

@[simp] theorem setStored_regs (s : State) (m : Memory) (w : List Nat) : (s.setStored m w).regs = s.regs := rfl
@[simp] theorem setStored_pc (s : State) (m : Memory) (w : List Nat) : (s.setStored m w).pc = s.pc := rfl
@[simp] theorem setStored_mem (s : State) (m : Memory) (w : List Nat) : (s.setStored m w).mem = m := rfl
@[simp] theorem setStored_written (s : State) (m : Memory) (w : List Nat) : (s.setStored m w).written = w := rfl
@[simp] theorem setStored_trap (s : State) (m : Memory) (w : List Nat) : (s.setStored m w).trap = s.trap := rfl
@[simp] theorem setStored_io (s : State) (m : Memory) (w : List Nat) : (s.setStored m w).io = s.io := rfl
@[simp] theorem setStored_ee (s : State) (m : Memory) (w : List Nat) : (s.setStored m w).ee = s.ee := rfl
@[simp] theorem setStored_cfg (s : State) (m : Memory) (w : List Nat) : (s.setStored m w).cfg = s.cfg := rfl

@[simp] theorem setX_pc (s : State) (r : Reg) (v : Word) : (s.setX r v).pc = s.pc := rfl
@[simp] theorem setX_mem (s : State) (r : Reg) (v : Word) : (s.setX r v).mem = s.mem := rfl
@[simp] theorem setX_written (s : State) (r : Reg) (v : Word) : (s.setX r v).written = s.written := rfl
@[simp] theorem setX_trap (s : State) (r : Reg) (v : Word) : (s.setX r v).trap = s.trap := rfl
@[simp] theorem setX_io (s : State) (r : Reg) (v : Word) : (s.setX r v).io = s.io := rfl
@[simp] theorem setX_ee (s : State) (r : Reg) (v : Word) : (s.setX r v).ee = s.ee := rfl
@[simp] theorem setX_cfg (s : State) (r : Reg) (v : Word) : (s.setX r v).cfg = s.cfg := rfl

@[simp] theorem x_setPc (s : State) (t : Word) (q : Reg) : (s.setPc t).x q = s.x q := rfl
@[simp] theorem x_setTrap (s : State) (r : Option TrapRecord) (q : Reg) : (s.setTrap r).x q = s.x q := rfl
@[simp] theorem x_setIo (s : State) (log : List IoEvent) (q : Reg) : (s.setIo log).x q = s.x q := rfl
@[simp] theorem x_setStored (s : State) (m : Memory) (w : List Nat) (q : Reg) : (s.setStored m w).x q = s.x q := rfl

/-- `x0` reads 0 (R21). -/
@[simp] theorem x_zero (s : State) : s.x 0#5 = 0#32 := rfl

/-- Two registers other than `x0` that share a place are the same register. -/
theorem regIndex_injective {p q : Reg} (hp : p ≠ 0#5) (hq : q ≠ 0#5) (h : regIndex p = regIndex q) :
    p = q := by
  have h' : p.toNat - 1 = q.toNat - 1 := congrArg Fin.val h
  have hp' : p.toNat ≠ 0 := fun e => hp (BitVec.eq_of_toNat_eq (by simpa using e))
  have hq' : q.toNat ≠ 0 := fun e => hq (BitVec.eq_of_toNat_eq (by simpa using e))
  exact BitVec.eq_of_toNat_eq (by omega)

/-- What every register reads after a register write (R21). -/
theorem x_setX (s : State) (r : Reg) (v : Word) (q : Reg) :
    (s.setX r v).x q = if q = 0#5 then 0#32 else if q = r then v else s.x q := by
  by_cases hq : q = 0#5
  · simp [hq]
  · by_cases hr : r = 0#5
    · have hqr : q ≠ r := hr ▸ hq
      simp [State.x, State.setX, hq, hr]
    · by_cases hqr : q = r
      · subst hqr
        simp [State.x, State.setX, hq]
      · have hne : (regIndex r).val ≠ (regIndex q).val := fun e =>
          hqr (regIndex_injective hq hr (Fin.ext e.symm))
        simp [State.x, State.setX, hq, hr, hqr, hne]

/-- A write to `x0` is discarded (R21). -/
@[simp] theorem setX_zero (s : State) (v : Word) : s.setX 0#5 v = s := rfl

end Sys2Proof.Machine
end

