-- ==== Sys2Proof/Laws/Ops.lean ====
section
/-! SUPPORT. For each shared operation, once, everything it can do. -/

namespace Sys2Proof.Machine

/-! ## Registers, the pc and traps -/

/-- Advancing the pc always completes. -/
theorem advance_eq (s : State) : advance s = .next (s.setPc (s.pc + 4#32)) := rfl

/-- Writing a register and advancing always completes. -/
theorem writeReg_eq (rd : Reg) (v : Word) (s : State) :
    writeReg rd v s = .next ((s.setX rd v).setPc (s.pc + 4#32)) := rfl

/-- Taking a trap always completes, and only the record is new. -/
theorem takeTrap_eq (c : Cause) (v : Word) (s : State) :
    takeTrap c v s = .next (s.setTrap (some { cause := c, pc := s.pc, value := v })) := rfl

/-- After a trap the run is over or the EE's next image is the hart's state. -/
theorem afterTrap_cases (r : TrapRecord) (s : State) :
    (s.ee = [] ∧ afterTrap r s = .fault (.runEnded r)) ∨
    (∃ image rest, s.ee = image :: rest ∧ afterTrap r s = .next { s with
      regs := image.regs, pc := image.pc, mem := image.mem, trap := none, ee := rest }) := by
  unfold afterTrap
  split
  · exact .inl ⟨by assumption, rfl⟩
  · exact .inr ⟨_, _, by assumption, rfl⟩

/-! ## Transfers -/

/-- A target is aligned iff it is a multiple of 4. -/
theorem targetAligned_iff (t : Word) : targetAligned t = true ↔ t.toNat % 4 = 0 := by
  simp only [targetAligned, beq_iff_eq, BitVec.toNat_eq, BitVec.extractLsb'_toNat, Nat.shiftRight_zero]
  rfl

/-- A transfer goes to an aligned target or takes the misaligned trap with the target as its value. -/
theorem transfer_cases (t : Word) (after s : State) :
    (t.toNat % 4 = 0 ∧ transfer t after s = .next (after.setPc t)) ∨
    (t.toNat % 4 ≠ 0 ∧ transfer t after s = takeTrap .instructionAddressMisaligned t s) := by
  unfold transfer
  split
  · exact .inl ⟨(targetAligned_iff t).mp (by assumption), rfl⟩
  · exact .inr ⟨fun h => (by assumption : ¬ _) ((targetAligned_iff t).mpr h), rfl⟩

/-- A branch advances, or transfers with no register written. -/
theorem branch_cases (taken : Bool) (imm : BitVec 13) (s : State) :
    (taken = false ∧ branch taken imm s = advance s) ∨
    (taken = true ∧ branch taken imm s = transfer (branchTarget imm s) s s) := by
  cases taken
  · exact .inl ⟨rfl, rfl⟩
  · exact .inr ⟨rfl, rfl⟩

/-! ## Explicit accesses -/

/-- The order of the checks of a read (R169), and what it gives when both pass. -/
theorem memRead_cases (n : Nat) (a : Word) (s : State) :
    (misalignedData s.cfg a n = true ∧ memRead n a s = .error .loadAddressMisaligned) ∨
    (misalignedData s.cfg a n = false ∧ accessible s.cfg.memMap .load a n = false ∧
      memRead n a s = .error .loadAccessFault) ∨
    (misalignedData s.cfg a n = false ∧ accessible s.cfg.memMap .load a n = true ∧
      memRead n a s = .ok (joinBytes (inMemoryOrder s.cfg.endian
        (bytesRead s (ioAfter s (.load a n) a n) a n)), s.setIo (ioAfter s (.load a n) a n))) := by
  unfold memRead
  cases h1 : misalignedData s.cfg a n
  · cases h2 : accessible s.cfg.memMap .load a n <;> simp
  · simp

/-- The order of the checks of a write (R169), and what it gives when both pass. -/
theorem memWrite_cases (n : Nat) (a : Word) (v : Word) (s : State) :
    (misalignedData s.cfg a n = true ∧ memWrite n a v s = .error .storeAddressMisaligned) ∨
    (misalignedData s.cfg a n = false ∧ accessible s.cfg.memMap .store a n = false ∧
      memWrite n a v s = .error .storeAccessFault) ∨
    (misalignedData s.cfg a n = false ∧ accessible s.cfg.memMap .store a n = true ∧
      memWrite n a v s = .ok ((s.setStored
        (writeBytes s.cfg.memMap a (inMemoryOrder s.cfg.endian (splitBytes n v)) s.mem)
        (addSpan a n s.written)).setIo
          (ioAfter s (.store a n (joinBytes (splitBytes n v))) a n))) := by
  unfold memWrite
  cases h1 : misalignedData s.cfg a n
  · cases h2 : accessible s.cfg.memMap .store a n <;> simp
  · simp

/-- What a load can do: one of two traps with the effective address, or the register write after the
read. -/
theorem load_cases (n : Nat) (extend : Word → Word) (rd rs1 : Reg) (imm : BitVec 12) (s : State) :
    let a := effectiveAddress rs1 imm s
    let log := ioAfter s (.load a n) a n
    (misalignedData s.cfg a n = true ∧
      load n extend rd rs1 imm s = takeTrap .loadAddressMisaligned a s) ∨
    (misalignedData s.cfg a n = false ∧ accessible s.cfg.memMap .load a n = false ∧
      load n extend rd rs1 imm s = takeTrap .loadAccessFault a s) ∨
    (misalignedData s.cfg a n = false ∧ accessible s.cfg.memMap .load a n = true ∧
      load n extend rd rs1 imm s = writeReg rd
        (extend (joinBytes (inMemoryOrder s.cfg.endian (bytesRead s log a n)))) (s.setIo log)) := by
  intro a log
  unfold load
  rcases memRead_cases n a s with ⟨h1, h⟩ | ⟨h1, h2, h⟩ | ⟨h1, h2, h⟩
  · exact .inl ⟨h1, by rw [h]⟩
  · exact .inr (.inl ⟨h1, h2, by rw [h]⟩)
  · exact .inr (.inr ⟨h1, h2, by rw [h]⟩)

/-- What a store can do: one of two traps with the effective address, or the write of its bytes. -/
theorem store_cases (n : Nat) (rs2 rs1 : Reg) (imm : BitVec 12) (s : State) :
    let a := effectiveAddress rs1 imm s
    (misalignedData s.cfg a n = true ∧
      store n rs2 rs1 imm s = takeTrap .storeAddressMisaligned a s) ∨
    (misalignedData s.cfg a n = false ∧ accessible s.cfg.memMap .store a n = false ∧
      store n rs2 rs1 imm s = takeTrap .storeAccessFault a s) ∨
    (misalignedData s.cfg a n = false ∧ accessible s.cfg.memMap .store a n = true ∧
      store n rs2 rs1 imm s = advance ((s.setStored
        (writeBytes s.cfg.memMap a (inMemoryOrder s.cfg.endian (splitBytes n (s.x rs2))) s.mem)
        (addSpan a n s.written)).setIo
          (ioAfter s (.store a n (joinBytes (splitBytes n (s.x rs2)))) a n))) := by
  intro a
  unfold store
  rcases memWrite_cases n a (s.x rs2) s with ⟨h1, h⟩ | ⟨h1, h2, h⟩ | ⟨h1, h2, h⟩
  · exact .inl ⟨h1, by rw [h]⟩
  · exact .inr (.inl ⟨h1, h2, by rw [h]⟩)
  · exact .inr (.inr ⟨h1, h2, by rw [h]⟩)

/-- Byte `k` of a read: the device's where the address is I/O, memory's elsewhere. -/
theorem bytesRead_getElem (s : State) (log : List IoEvent) (a : Word) (n k : Nat)
    (hk : k < (bytesRead s log a n).length) :
    (bytesRead s log a n)[k] = byteRead s (Config.ioReply log) a k := by
  simp [bytesRead]

@[simp] theorem bytesRead_length (s : State) (log : List IoEvent) (a : Word) (n : Nat) :
    (bytesRead s log a n).length = n := by
  simp [bytesRead]

/-! ## The fetch -/

/-- The order of the checks of a fetch (R234), and what it gives when both pass. -/
theorem fetch_cases (s : State) :
    (accessible s.cfg.memMap .fetch s.pc 4 = false ∧ fetch s = .denied) ∨
    (accessible s.cfg.memMap .fetch s.pc 4 = true ∧ s.cfg.fetchAfterStore = .refuse ∧
      storedTo s s.pc = true ∧ fetch s = .stale) ∨
    (accessible s.cfg.memMap .fetch s.pc 4 = true ∧
      (s.cfg.fetchAfterStore = .coherent ∨ storedTo s s.pc = false) ∧
      fetch s = .word (joinBytes (bytesRead s (ioAfter s (.fetch s.pc) s.pc 4) s.pc 4))
        (s.setIo (ioAfter s (.fetch s.pc) s.pc 4))) := by
  unfold fetch
  cases h1 : accessible s.cfg.memMap .fetch s.pc 4
  · simp
  · cases h2 : s.cfg.fetchAfterStore <;> cases h3 : storedTo s s.pc <;> simp

/-- What a step can find at the pc (R234 steps 1 to 4). -/
theorem fetchDecode_cases (s : State) :
    (fetch s = .denied ∧ fetchDecode s = .stop (takeTrap .instructionAccessFault s.pc s)) ∨
    (fetch s = .stale ∧ fetchDecode s = .stop (.refused .fetchAfterStore)) ∨
    (∃ w s', fetch s = .word w s' ∧
      ((∃ e, decode w = .error e ∧ fetchDecode s = .stop (takeTrap .illegalInstruction w s')) ∨
       (∃ i, decode w = .ok i ∧ fetchDecode s = .run i s'))) := by
  unfold fetchDecode
  cases h : fetch s with
  | denied => exact .inl ⟨rfl, rfl⟩
  | stale => exact .inr (.inl ⟨rfl, rfl⟩)
  | word w s' =>
    refine .inr (.inr ⟨w, s', rfl, ?_⟩)
    cases hd : decode w with
    | error e => exact .inl ⟨e, rfl, by simp [hd]⟩
    | ok i => exact .inr ⟨i, rfl, by simp [hd]⟩

end Sys2Proof.Machine
end

