-- ==== Sys2Proof/Laws/PerInstr.lean ====
section
/-! SUPPORT. Families of lemmas with one lemma per constructor of `Instr`. -/

namespace Sys2Proof.Laws

/-- Every instruction's word has the length bits of a 32-bit instruction: `inst[1:0] = 11` and
`inst[4:2]` not `111` (R71). -/
def LengthBits.Statement (i : Instr) : Prop :=
  (encode i).extractLsb' 0 2 = 0b11#2 ∧ (encode i).extractLsb' 2 3 ≠ 0b111#3

/-- The length bits of a word lie in its opcode. -/
theorem lengthBits_append {n : Nat} (v : BitVec n) (op : BitVec 7) (h0 : op.extractLsb' 0 2 = 0b11#2)
    (h2 : op.extractLsb' 2 3 ≠ 0b111#3) :
    (v ++ op).extractLsb' 0 2 = 0b11#2 ∧ (v ++ op).extractLsb' 2 3 ≠ 0b111#3 := by
  rw [BitVec.extractLsb'_append_eq_of_add_le (by omega),
    BitVec.extractLsb'_append_eq_of_add_le (by omega)]
  exact ⟨h0, h2⟩

theorem LengthBits.lui (rd : Reg) (imm : BitVec 20) : LengthBits.Statement (.lui rd imm) :=
  lengthBits_append _ _ (by decide) (by decide)

theorem LengthBits.auipc (rd : Reg) (imm : BitVec 20) : LengthBits.Statement (.auipc rd imm) :=
  lengthBits_append _ _ (by decide) (by decide)

theorem LengthBits.jal (rd : Reg) (imm : BitVec 21) : LengthBits.Statement (.jal rd imm) :=
  lengthBits_append _ _ (by decide) (by decide)

theorem LengthBits.jalr (rd rs1 : Reg) (imm : BitVec 12) : LengthBits.Statement (.jalr rd rs1 imm) :=
  lengthBits_append _ _ (by decide) (by decide)

theorem LengthBits.beq (rs1 rs2 : Reg) (imm : BitVec 13) : LengthBits.Statement (.beq rs1 rs2 imm) :=
  lengthBits_append _ _ (by decide) (by decide)

theorem LengthBits.bne (rs1 rs2 : Reg) (imm : BitVec 13) : LengthBits.Statement (.bne rs1 rs2 imm) :=
  lengthBits_append _ _ (by decide) (by decide)

theorem LengthBits.blt (rs1 rs2 : Reg) (imm : BitVec 13) : LengthBits.Statement (.blt rs1 rs2 imm) :=
  lengthBits_append _ _ (by decide) (by decide)

theorem LengthBits.bge (rs1 rs2 : Reg) (imm : BitVec 13) : LengthBits.Statement (.bge rs1 rs2 imm) :=
  lengthBits_append _ _ (by decide) (by decide)

theorem LengthBits.bltu (rs1 rs2 : Reg) (imm : BitVec 13) : LengthBits.Statement (.bltu rs1 rs2 imm) :=
  lengthBits_append _ _ (by decide) (by decide)

theorem LengthBits.bgeu (rs1 rs2 : Reg) (imm : BitVec 13) : LengthBits.Statement (.bgeu rs1 rs2 imm) :=
  lengthBits_append _ _ (by decide) (by decide)

theorem LengthBits.lb (rd rs1 : Reg) (imm : BitVec 12) : LengthBits.Statement (.lb rd rs1 imm) :=
  lengthBits_append _ _ (by decide) (by decide)

theorem LengthBits.lh (rd rs1 : Reg) (imm : BitVec 12) : LengthBits.Statement (.lh rd rs1 imm) :=
  lengthBits_append _ _ (by decide) (by decide)

theorem LengthBits.lw (rd rs1 : Reg) (imm : BitVec 12) : LengthBits.Statement (.lw rd rs1 imm) :=
  lengthBits_append _ _ (by decide) (by decide)

theorem LengthBits.lbu (rd rs1 : Reg) (imm : BitVec 12) : LengthBits.Statement (.lbu rd rs1 imm) :=
  lengthBits_append _ _ (by decide) (by decide)

theorem LengthBits.lhu (rd rs1 : Reg) (imm : BitVec 12) : LengthBits.Statement (.lhu rd rs1 imm) :=
  lengthBits_append _ _ (by decide) (by decide)

theorem LengthBits.sb (rs2 rs1 : Reg) (imm : BitVec 12) : LengthBits.Statement (.sb rs2 rs1 imm) :=
  lengthBits_append _ _ (by decide) (by decide)

theorem LengthBits.sh (rs2 rs1 : Reg) (imm : BitVec 12) : LengthBits.Statement (.sh rs2 rs1 imm) :=
  lengthBits_append _ _ (by decide) (by decide)

theorem LengthBits.sw (rs2 rs1 : Reg) (imm : BitVec 12) : LengthBits.Statement (.sw rs2 rs1 imm) :=
  lengthBits_append _ _ (by decide) (by decide)

theorem LengthBits.addi (rd rs1 : Reg) (imm : BitVec 12) : LengthBits.Statement (.addi rd rs1 imm) :=
  lengthBits_append _ _ (by decide) (by decide)

theorem LengthBits.slti (rd rs1 : Reg) (imm : BitVec 12) : LengthBits.Statement (.slti rd rs1 imm) :=
  lengthBits_append _ _ (by decide) (by decide)

theorem LengthBits.sltiu (rd rs1 : Reg) (imm : BitVec 12) : LengthBits.Statement (.sltiu rd rs1 imm) :=
  lengthBits_append _ _ (by decide) (by decide)

theorem LengthBits.xori (rd rs1 : Reg) (imm : BitVec 12) : LengthBits.Statement (.xori rd rs1 imm) :=
  lengthBits_append _ _ (by decide) (by decide)

theorem LengthBits.ori (rd rs1 : Reg) (imm : BitVec 12) : LengthBits.Statement (.ori rd rs1 imm) :=
  lengthBits_append _ _ (by decide) (by decide)

theorem LengthBits.andi (rd rs1 : Reg) (imm : BitVec 12) : LengthBits.Statement (.andi rd rs1 imm) :=
  lengthBits_append _ _ (by decide) (by decide)

theorem LengthBits.slli (rd rs1 : Reg) (shamt : BitVec 5) : LengthBits.Statement (.slli rd rs1 shamt) :=
  lengthBits_append _ _ (by decide) (by decide)

theorem LengthBits.srli (rd rs1 : Reg) (shamt : BitVec 5) : LengthBits.Statement (.srli rd rs1 shamt) :=
  lengthBits_append _ _ (by decide) (by decide)

theorem LengthBits.srai (rd rs1 : Reg) (shamt : BitVec 5) : LengthBits.Statement (.srai rd rs1 shamt) :=
  lengthBits_append _ _ (by decide) (by decide)

theorem LengthBits.add (rd rs1 rs2 : Reg) : LengthBits.Statement (.add rd rs1 rs2) :=
  lengthBits_append _ _ (by decide) (by decide)

theorem LengthBits.sub (rd rs1 rs2 : Reg) : LengthBits.Statement (.sub rd rs1 rs2) :=
  lengthBits_append _ _ (by decide) (by decide)

theorem LengthBits.sll (rd rs1 rs2 : Reg) : LengthBits.Statement (.sll rd rs1 rs2) :=
  lengthBits_append _ _ (by decide) (by decide)

theorem LengthBits.slt (rd rs1 rs2 : Reg) : LengthBits.Statement (.slt rd rs1 rs2) :=
  lengthBits_append _ _ (by decide) (by decide)

theorem LengthBits.sltu (rd rs1 rs2 : Reg) : LengthBits.Statement (.sltu rd rs1 rs2) :=
  lengthBits_append _ _ (by decide) (by decide)

theorem LengthBits.xor (rd rs1 rs2 : Reg) : LengthBits.Statement (.xor rd rs1 rs2) :=
  lengthBits_append _ _ (by decide) (by decide)

theorem LengthBits.srl (rd rs1 rs2 : Reg) : LengthBits.Statement (.srl rd rs1 rs2) :=
  lengthBits_append _ _ (by decide) (by decide)

theorem LengthBits.sra (rd rs1 rs2 : Reg) : LengthBits.Statement (.sra rd rs1 rs2) :=
  lengthBits_append _ _ (by decide) (by decide)

theorem LengthBits.or (rd rs1 rs2 : Reg) : LengthBits.Statement (.or rd rs1 rs2) :=
  lengthBits_append _ _ (by decide) (by decide)

theorem LengthBits.and (rd rs1 rs2 : Reg) : LengthBits.Statement (.and rd rs1 rs2) :=
  lengthBits_append _ _ (by decide) (by decide)

theorem LengthBits.fenceTso (rs1 rd : Reg) : LengthBits.Statement (.fenceTso rs1 rd) :=
  lengthBits_append _ _ (by decide) (by decide)

theorem LengthBits.fence (fm pred succ : BitVec 4) (rs1 rd : Reg) : LengthBits.Statement (.fence fm pred succ rs1 rd) :=
  lengthBits_append _ _ (by decide) (by decide)

theorem LengthBits.ecall  : LengthBits.Statement .ecall :=
  lengthBits_append _ _ (by decide) (by decide)

theorem LengthBits.ebreak  : LengthBits.Statement .ebreak :=
  lengthBits_append _ _ (by decide) (by decide)

end Sys2Proof.Laws
end

