-- ==== Sys2Proof/Machine/Assembler.lean ====
section
/-! DEFINITION. The assembler spelling of an instruction (R92) and the software names of the registers
(R22). The hardware sees neither: no meaning reads this file. -/

namespace Sys2Proof.Machine

/-- `x0` to `x31` (R92). -/
def xName (r : Reg) : String := "x" ++ toString r.toNat

/-- The software names of R22; they are aliases only. -/
def softwareNames : List String :=
  ["zero", "ra", "sp", "gp", "tp", "t0", "t1", "t2", "s0", "s1", "a0", "a1", "a2", "a3", "a4", "a5",
   "a6", "a7", "s2", "s3", "s4", "s5", "s6", "s7", "s8", "s9", "s10", "s11", "t3", "t4", "t5", "t6"]

/-- The software name of a register (R22). -/
def softwareName (r : Reg) : String := softwareNames.getD r.toNat "zero"

/-- `op rd, rs1, rs2`. -/
def asmR (op : String) (rd rs1 rs2 : Reg) : String :=
  op ++ " " ++ xName rd ++ ", " ++ xName rs1 ++ ", " ++ xName rs2

/-- `op a, b, n`: register-immediate instructions and, with an offset in place of a label, branches. -/
def asmI (op : String) (a b : Reg) (n : Int) : String :=
  op ++ " " ++ xName a ++ ", " ++ xName b ++ ", " ++ toString n

/-- `op r, imm(rs1)`: loads, stores and JALR. -/
def asmMem (op : String) (r rs1 : Reg) (n : Int) : String :=
  op ++ " " ++ xName r ++ ", " ++ toString n ++ "(" ++ xName rs1 ++ ")"

/-- `op rd, n`: LUI, AUIPC, and JAL with an offset in place of a label. -/
def asmU (op : String) (rd : Reg) (n : Int) : String := op ++ " " ++ xName rd ++ ", " ++ toString n

/-- The letters of a predecessor or successor set (R92, R85). -/
def fenceSet (f : BitVec 4) : String :=
  (if f.getLsbD 3 then "i" else "") ++ (if f.getLsbD 2 then "o" else "") ++
    (if f.getLsbD 1 then "r" else "") ++ (if f.getLsbD 0 then "w" else "")

/-- The spelling of R92, branch targets and jump targets as offsets; none for a FENCE word that R92 gives
no spelling (reserved fields set, or an empty set). -/
def asm : Instr → Option String
  | .lui rd imm => some (asmU "lui" rd imm.toNat)
  | .auipc rd imm => some (asmU "auipc" rd imm.toNat)
  | .jal rd imm => some (asmU "jal" rd imm.toInt)
  | .jalr rd rs1 imm => some (asmMem "jalr" rd rs1 imm.toInt)
  | .beq rs1 rs2 imm => some (asmI "beq" rs1 rs2 imm.toInt)
  | .bne rs1 rs2 imm => some (asmI "bne" rs1 rs2 imm.toInt)
  | .blt rs1 rs2 imm => some (asmI "blt" rs1 rs2 imm.toInt)
  | .bge rs1 rs2 imm => some (asmI "bge" rs1 rs2 imm.toInt)
  | .bltu rs1 rs2 imm => some (asmI "bltu" rs1 rs2 imm.toInt)
  | .bgeu rs1 rs2 imm => some (asmI "bgeu" rs1 rs2 imm.toInt)
  | .lb rd rs1 imm => some (asmMem "lb" rd rs1 imm.toInt)
  | .lh rd rs1 imm => some (asmMem "lh" rd rs1 imm.toInt)
  | .lw rd rs1 imm => some (asmMem "lw" rd rs1 imm.toInt)
  | .lbu rd rs1 imm => some (asmMem "lbu" rd rs1 imm.toInt)
  | .lhu rd rs1 imm => some (asmMem "lhu" rd rs1 imm.toInt)
  | .sb rs2 rs1 imm => some (asmMem "sb" rs2 rs1 imm.toInt)
  | .sh rs2 rs1 imm => some (asmMem "sh" rs2 rs1 imm.toInt)
  | .sw rs2 rs1 imm => some (asmMem "sw" rs2 rs1 imm.toInt)
  | .addi rd rs1 imm => some (asmI "addi" rd rs1 imm.toInt)
  | .slti rd rs1 imm => some (asmI "slti" rd rs1 imm.toInt)
  | .sltiu rd rs1 imm => some (asmI "sltiu" rd rs1 imm.toInt)
  | .xori rd rs1 imm => some (asmI "xori" rd rs1 imm.toInt)
  | .ori rd rs1 imm => some (asmI "ori" rd rs1 imm.toInt)
  | .andi rd rs1 imm => some (asmI "andi" rd rs1 imm.toInt)
  | .slli rd rs1 sh => some (asmI "slli" rd rs1 sh.toNat)
  | .srli rd rs1 sh => some (asmI "srli" rd rs1 sh.toNat)
  | .srai rd rs1 sh => some (asmI "srai" rd rs1 sh.toNat)
  | .add rd rs1 rs2 => some (asmR "add" rd rs1 rs2)
  | .sub rd rs1 rs2 => some (asmR "sub" rd rs1 rs2)
  | .sll rd rs1 rs2 => some (asmR "sll" rd rs1 rs2)
  | .slt rd rs1 rs2 => some (asmR "slt" rd rs1 rs2)
  | .sltu rd rs1 rs2 => some (asmR "sltu" rd rs1 rs2)
  | .xor rd rs1 rs2 => some (asmR "xor" rd rs1 rs2)
  | .srl rd rs1 rs2 => some (asmR "srl" rd rs1 rs2)
  | .sra rd rs1 rs2 => some (asmR "sra" rd rs1 rs2)
  | .or rd rs1 rs2 => some (asmR "or" rd rs1 rs2)
  | .and rd rs1 rs2 => some (asmR "and" rd rs1 rs2)
  | .fenceTso rs1 rd => if rs1 = 0#5 ∧ rd = 0#5 then some "fence.tso" else none
  | .fence fm pred succ rs1 rd =>
    if fm = 0#4 ∧ pred ≠ 0#4 ∧ succ ≠ 0#4 ∧ rs1 = 0#5 ∧ rd = 0#5 then
      some ("fence " ++ fenceSet pred ++ ", " ++ fenceSet succ)
    else none
  | .ecall => some "ecall"
  | .ebreak => some "ebreak"

end Sys2Proof.Machine
end

