-- ==== Sys2Proof/Tests/Slice0.lean ====
section
/-! SUPPORT. Tests: the well-formedness checks, decoding of words written from the spec's encodings, one
step each on a small state, and for every statement with hypotheses a state and operands that meet them.
Expected values are those of 95_test_vectors.md, or are worked out by hand from the rule named. -/

namespace Sys2Proof.Tests

open Sys2Proof.Machine

/-! ## Well-formedness: each check refuses an ill-formed term -/

theorem test_wf_branches_refuse_odd_offset :
    WellFormed (.beq 5 6 1) = false ∧ WellFormed (.bne 5 6 0x1FFF) = false ∧
    WellFormed (.blt 5 6 3) = false ∧ WellFormed (.bge 5 6 5) = false ∧
    WellFormed (.bltu 5 6 7) = false ∧ WellFormed (.bgeu 5 6 0x0FFF) = false := by decide

theorem test_wf_jal_refuses_odd_offset : WellFormed (.jal 1 0x1FFFFF) = false := by decide

theorem test_wf_fence_refuses_tso_fields : WellFormed (.fence 8 3 3 1 2) = false := by decide

theorem test_wf_accepts_neighbours :
    WellFormed (.beq 5 6 0x1000) = true ∧ WellFormed (.jal 1 0x100002) = true ∧
    WellFormed (.fence 8 3 2 0 0) = true ∧ WellFormed (.fence 0 3 3 0 0) = true ∧
    WellFormed (.jalr 0 1 1) = true := by decide

/-! ## Decoding: words written field by field from 30_encoding.md (R75 to R86)

U: imm rd opcode. J: 20 10:1 11 19:12 rd opcode. I: imm rs1 funct3 rd opcode. B: 12 10:5 rs2 rs1 funct3
4:1 11 opcode. S: 11:5 rs2 rs1 funct3 4:0 opcode. R: funct7 rs2 rs1 funct3 rd opcode. -/

theorem test_decode_upper_and_jumps :
    decode 0b00010010001101000101_00101_0110111#32 = .ok (.lui 5 0x12345) ∧
    decode 0b11111111111111111111_00101_0010111#32 = .ok (.auipc 5 0xFFFFF) ∧
    decode 0b0_0000000000_1_00000000_00001_1101111#32 = .ok (.jal 1 2048) ∧
    decode 0b1_1111111110_1_11111111_00001_1101111#32 = .ok (.jal 1 0x1FFFFC) ∧
    decode 0b0_1000000000_0_00000001_00000_1101111#32 = .ok (.jal 0 0x001400) ∧
    decode 0b111111111100_00101_000_00001_1100111#32 = .ok (.jalr 1 5 0xFFC) := by decide

theorem test_decode_branches :
    decode 0b0_000000_00110_00101_000_0100_0_1100011#32 = .ok (.beq 5 6 8) ∧
    decode 0b1_111111_00110_00101_001_1100_1_1100011#32 = .ok (.bne 5 6 0x1FF8) ∧
    decode 0b0_000000_00110_00101_100_1000_0_1100011#32 = .ok (.blt 5 6 16) ∧
    decode 0b0_000000_00110_00101_101_0000_1_1100011#32 = .ok (.bge 5 6 2048) ∧
    decode 0b1_000000_00110_00101_110_0000_0_1100011#32 = .ok (.bltu 5 6 0x1000) ∧
    decode 0b0_100001_00110_00101_111_0001_0_1100011#32 = .ok (.bgeu 5 6 0x422) := by decide

theorem test_decode_loads_and_stores :
    decode 0b000000000001_00110_000_00101_0000011#32 = .ok (.lb 5 6 1) ∧
    decode 0b111111111110_00110_001_00101_0000011#32 = .ok (.lh 5 6 0xFFE) ∧
    decode 0b000000001000_00110_010_00101_0000011#32 = .ok (.lw 5 6 8) ∧
    decode 0b000000000001_00110_100_00101_0000011#32 = .ok (.lbu 5 6 1) ∧
    decode 0b000000000011_00110_101_00101_0000011#32 = .ok (.lhu 5 6 3) ∧
    decode 0b0000000_00111_00110_000_00001_0100011#32 = .ok (.sb 7 6 1) ∧
    decode 0b1000000_00111_00110_001_00010_0100011#32 = .ok (.sh 7 6 0x802) ∧
    decode 0b1111111_00111_00110_010_11100_0100011#32 = .ok (.sw 7 6 0xFFC) := by decide

theorem test_decode_register_immediate :
    decode 0b111111111111_00110_000_00101_0010011#32 = .ok (.addi 5 6 0xFFF) ∧
    decode 0b011111111111_00110_010_00101_0010011#32 = .ok (.slti 5 6 0x7FF) ∧
    decode 0b100000000000_00110_011_00101_0010011#32 = .ok (.sltiu 5 6 0x800) ∧
    decode 0b010101010101_00110_100_00101_0010011#32 = .ok (.xori 5 6 0x555) ∧
    decode 0b111100000000_00110_110_00101_0010011#32 = .ok (.ori 5 6 0xF00) ∧
    decode 0b000011111111_00110_111_00101_0010011#32 = .ok (.andi 5 6 0x0FF) ∧
    decode 0b0000000_00100_00110_001_00101_0010011#32 = .ok (.slli 5 6 4) ∧
    decode 0b0000000_11111_00110_101_00101_0010011#32 = .ok (.srli 5 6 31) ∧
    decode 0b0100000_00100_00110_101_00101_0010011#32 = .ok (.srai 5 6 4) := by decide

theorem test_decode_register_register :
    decode 0b0000000_00111_00110_000_00101_0110011#32 = .ok (.add 5 6 7) ∧
    decode 0b0100000_00111_00110_000_00101_0110011#32 = .ok (.sub 5 6 7) ∧
    decode 0b0000000_00111_00110_001_00101_0110011#32 = .ok (.sll 5 6 7) ∧
    decode 0b0000000_00111_00110_010_00101_0110011#32 = .ok (.slt 5 6 7) ∧
    decode 0b0000000_00111_00110_011_00101_0110011#32 = .ok (.sltu 5 6 7) ∧
    decode 0b0000000_00111_00110_100_00101_0110011#32 = .ok (.xor 5 6 7) ∧
    decode 0b0000000_00111_00110_101_00101_0110011#32 = .ok (.srl 5 6 7) ∧
    decode 0b0100000_00111_00110_101_00101_0110011#32 = .ok (.sra 5 6 7) ∧
    decode 0b0000000_00111_00110_110_00101_0110011#32 = .ok (.or 5 6 7) ∧
    decode 0b0000000_00111_00110_111_00101_0110011#32 = .ok (.and 5 6 7) := by decide

/-- FENCE: fm pred succ rs1 funct3 rd opcode (R85). -/
theorem test_decode_fences_and_system :
    decode 0b0000_0001_0010_00000_000_00000_0001111#32 = .ok (.fence 0 1 2 0 0) ∧
    decode 0b1000_0011_0001_00011_000_00010_0001111#32 = .ok (.fence 8 3 1 3 2) ∧
    decode 0b1000_0011_0011_00000_000_00000_0001111#32 = .ok (.fenceTso 0 0) ∧
    decode 0b000000000000_00000_000_00000_1110011#32 = .ok .ecall ∧
    decode 0b000000000001_00000_000_00000_1110011#32 = .ok .ebreak := by decide

/-- Words that are no instruction, each by the name of the step of R87 that rejects it. -/
theorem test_decode_rejects :
    decode 0x00000000#32 = .error .shortLength ∧ decode 0x00004501#32 = .error .shortLength ∧
    decode 0xFFFFFFFF#32 = .error .longLength ∧ decode 0x0000001F#32 = .error .longLength ∧
    decode 0x0000202F#32 = .error .unknownMajorOpcode ∧
    decode 0x02031293#32 = .error .reservedMinorOpcode ∧
    decode 0x20035293#32 = .error .reservedMinorOpcode ∧
    decode 0x027302B3#32 = .error .reservedMinorOpcode ∧
    decode 0x00033283#32 = .error .reservedMinorOpcode ∧
    decode 0x000290E7#32 = .error .reservedMinorOpcode ∧
    decode 0x0062A463#32 = .error .reservedMinorOpcode ∧
    decode 0x0000100F#32 = .error .reservedMinorOpcode ∧
    decode 0x30200073#32 = .error .reservedMinorOpcode ∧
    decodeBytes [0x13, 0x05, 0xA0] = .error .truncated := by decide

/-- Example E12 of part 1: the bytes of `addi x10, x0, 10`, and the same word as a table word. -/
theorem test_decode_parcels :
    decodeBytes [0x13, 0x05, 0xA0, 0x00, 0x73] = .ok (.addi 10 0 10, [0x73]) ∧
    encodeBytes (.addi 10 0 10) = [0x13, 0x05, 0xA0, 0x00] ∧
    decodeTableWord 32 0x00A00513 = some (.addi 10 0 10) ∧ decodeTableWord 32 0 = none := by decide

/-- The words of parts 1 and 2 that the encoder must give. -/
theorem test_encode :
    encode (.lui 5 0xDEADC) = 0xDEADC2B7#32 ∧ encode (.jal 1 0x0FFFFC) = 0x7FDFF0EF#32 ∧
    encode (.jalr 1 1 0x678) = 0x678080E7#32 ∧ encode (.beq 5 6 0x1000) = 0x80628063#32 ∧
    encode (.lw 5 6 0xFFC) = 0xFFC32283#32 ∧ encode (.sh 7 6 4) = 0x00731223#32 ∧
    encode (.srai 5 6 31) = 0x41F35293#32 ∧ encode (.sub 5 6 7) = 0x407302B3#32 ∧
    encode (.fenceTso 0 0) = 0x8330000F#32 ∧ encode .ebreak = 0x00100073#32 := by decide

/-- Example E1: the words of the pseudo-instructions of the source. -/
theorem test_pseudo_words :
    encode (pseudoMv 5 6) = 0x00030293#32 ∧ encode (pseudoSeqz 5 6) = 0x00133293#32 ∧
    encode (pseudoNot 5 6) = 0xFFF34293#32 ∧ encode (pseudoSnez 5 6) = 0x006032B3#32 ∧
    encode nop = 0x00000013#32 ∧ encode (pseudoJ 0x1FFFF8) = 0xFF9FF06F#32 ∧
    pseudoLi 5 0xDEADBEEF#32 = [.lui 5 0xDEADC, .addi 5 5 0xEEF] := by decide

/-- Example E5: the return-address-stack table. -/
theorem test_ras_table :
    rasJalr 0 6 = .none ∧ rasJalr 0 1 = .pop ∧ rasJalr 1 6 = .push ∧ rasJalr 1 5 = .popThenPush ∧
    rasJalr 5 1 = .popThenPush ∧ rasJalr 1 1 = .push ∧ rasJal 1 = .push ∧ rasJal 0 = .none := by decide

/-- Spellings of R92, as the tables of part 2 write them. -/
theorem test_asm :
    asm (.addi 5 6 0xFFF) = some "addi x5, x6, -1" ∧ asm (.lw 5 6 0xFFC) = some "lw x5, -4(x6)" ∧
    asm (.sw 7 6 8) = some "sw x7, 8(x6)" ∧ asm (.bne 5 6 0x1FF8) = some "bne x5, x6, -8" ∧
    asm (.fence 0 15 15 0 0) = some "fence iorw, iorw" ∧ asm (.fence 1 15 15 0 0) = none := by decide

/-! ## One step each -/

/-- The word `w` at `pc`, some registers and some bytes of memory; everything else as at reset. -/
def start (w : Nat) (pc : Word) (regs : List (Reg × Word)) (mem : List Host.Cell) : State :=
  State.withFetchWord (regs.foldl (fun s p => s.setX p.1 p.2)
    { State.reset with pc := pc, mem := mem }) 32 w

/-- What a register holds after one step, the pc and the trap record. -/
def after (r : Reg) (o : Host.Outcome State Fault Refusal) :
    Option (Word × Word × Option TrapRecord) :=
  match o with
  | .next t => some (t.x r, t.pc, t.trap)
  | .fault _ => none
  | .refused _ => none

/-- What some addresses hold after one step, the pc and Written. -/
def stored (addresses : List Nat) (o : Host.Outcome State Fault Refusal) :
    Option (List Byte × Word × List Nat) :=
  match o with
  | .next t => some (addresses.map t.mem.read, t.pc, t.written)
  | .fault _ => none
  | .refused _ => none

/-- The bytes of the load vectors of part 2. -/
def loadBytes : List Host.Cell := [(0x2001, 0x80), (0x2002, 0xFF), (0x2003, 0x7F)]

theorem test_lui : after 5 (step (start 0x123452B7 0x1000#32 [(5, 0xFFFFFFFF#32)] []))
    = some (0x12345000#32, 0x1004#32, none) := by decide
theorem test_auipc : after 5 (step (start 0x80000297 0x80000004#32 [] []))
    = some (0x00000004#32, 0x80000008#32, none) := by decide
theorem test_jal_wraps : after 1 (step (start 0x008000EF 0xFFFFFFFC#32 [(1, 0xAAAAAAAA#32)] []))
    = some (0x00000000#32, 0x00000004#32, none) := by decide
theorem test_jal_misaligned : after 1 (step (start 0x002000EF 0x1000#32 [(1, 0xAAAAAAAA#32)] []))
    = some (0xAAAAAAAA#32, 0x1000#32, some ⟨.instructionAddressMisaligned, 0x1000#32, 0x1002#32⟩) := by
  decide
theorem test_jalr_old_source : after 1 (step (start 0x008080E7 0x1000#32 [(1, 0x00003000#32)] []))
    = some (0x1004#32, 0x3008#32, none) := by decide
theorem test_jalr_clears_bit0_then_misaligned :
    after 1 (step (start 0x004280E7 0x1000#32 [(1, 0xAAAAAAAA#32), (5, 0x2003#32)] []))
    = some (0xAAAAAAAA#32, 0x1000#32, some ⟨.instructionAddressMisaligned, 0x1000#32, 0x2006#32⟩) := by
  decide
theorem test_beq_taken : after 5 (step (start 0x80628063 0x2000#32 [] []))
    = some (0#32, 0x1000#32, none) := by decide
theorem test_beq_not_taken_misaligned :
    after 5 (step (start 0x00628163 0x1000#32 [(5, 1#32), (6, 2#32)] []))
    = some (1#32, 0x1004#32, none) := by decide
theorem test_bne : after 5 (step (start 0xFE629CE3 0x1010#32 [(5, 1#32)] []))
    = some (1#32, 0x1008#32, none) := by decide
theorem test_blt : after 6 (step (start 0x0062C863 0x1000#32 [(5, 0xFFFFFFFF#32), (6, 1#32)] []))
    = some (1#32, 0x1010#32, none) := by decide
theorem test_bge : after 5 (step (start 0x0062D863 0x1000#32 [(6, 0xFFFFFFFF#32)] []))
    = some (0#32, 0x1010#32, none) := by decide
theorem test_bltu : after 6 (step (start 0x0062E863 0x1000#32 [(5, 0xFFFFFFFF#32), (6, 1#32)] []))
    = some (1#32, 0x1004#32, none) := by decide
theorem test_bgeu : after 6 (step (start 0x0062F863 0x1000#32 [(5, 0x80000000#32)] []))
    = some (0#32, 0x1010#32, none) := by decide
theorem test_lb : after 5 (step (start 0x00130283 0x1000#32 [(6, 0x2000#32)] loadBytes))
    = some (0xFFFFFF80#32, 0x1004#32, none) := by decide
theorem test_lbu : after 5 (step (start 0x00134283 0x1000#32 [(6, 0x2000#32)] loadBytes))
    = some (0x80#32, 0x1004#32, none) := by decide
theorem test_lh : after 5 (step (start 0xFFE31283 0x1000#32 [(6, 0x2002#32)] loadBytes))
    = some (0xFFFF8000#32, 0x1004#32, none) := by decide
theorem test_lhu : after 5 (step (start 0x00035283 0x1000#32 [(6, 0x2000#32)] loadBytes))
    = some (0x8000#32, 0x1004#32, none) := by decide
theorem test_lw_wraps : after 5 (step (start 0xFFC32283 0x1000#32 []
      [(0xFFFFFFFC, 1), (0xFFFFFFFD, 2), (0xFFFFFFFE, 3), (0xFFFFFFFF, 4)]))
    = some (0x04030201#32, 0x1004#32, none) := by decide
theorem test_lw_x0_still_traps : after 0 (step (start 0x00032003 0x1000#32 [(6, 0x2009#32)] []))
    = some (0#32, 0x1000#32, some ⟨.loadAddressMisaligned, 0x1000#32, 0x2009#32⟩) := by decide
theorem test_sb : stored [0x2000, 0x2001, 0x2002]
      (step (start 0x007300A3 0x1000#32 [(6, 0x2000#32), (7, 0x11223344#32)] loadBytes))
    = some ([0, 0x44, 0xFF], 0x1004#32, [0x2001]) := by decide
theorem test_sh : stored [0x2003, 0x2004, 0x2005, 0x2006]
      (step (start 0x00731223 0x1000#32 [(6, 0x2000#32), (7, 0x81828384#32)] loadBytes))
    = some ([0x7F, 0x84, 0x83, 0], 0x1004#32, [0x2004, 0x2005]) := by decide
/-- Example E13: the two byte orders of one SW. -/
theorem test_sw_byte_orders :
    let s := start 0x00732423 0x1000#32 [(6, 0x2000#32), (7, 0x11223344#32)] []
    stored [0x2008, 0x2009, 0x200A, 0x200B] (step s)
      = some ([0x44, 0x33, 0x22, 0x11], 0x1004#32, [0x2008, 0x2009, 0x200A, 0x200B]) ∧
    stored [0x2008, 0x2009, 0x200A, 0x200B] (step (Claims.withEndian .big s))
      = some ([0x11, 0x22, 0x33, 0x44], 0x1004#32, [0x2008, 0x2009, 0x200A, 0x200B]) := by decide
theorem test_addi : after 5 (step (start 0xFFF30293 0x1000#32 [(6, 0x80000000#32)] []))
    = some (0x7FFFFFFF#32, 0x1004#32, none) := by decide
theorem test_slti : after 5 (step (start 0xFFF32293 0x1000#32 [(6, 0xFFFFFFFE#32)] []))
    = some (1#32, 0x1004#32, none) := by decide
theorem test_sltiu : after 5 (step (start 0x80033293 0x1000#32 [(6, 0xFFFFF7FF#32)] []))
    = some (1#32, 0x1004#32, none) := by decide
theorem test_xori : after 5 (step (start 0xFFF34293 0x1000#32 [(6, 0x0F0F0F0F#32)] []))
    = some (0xF0F0F0F0#32, 0x1004#32, none) := by decide
theorem test_ori : after 5 (step (start 0xF0036293 0x1000#32 [(6, 0x12#32)] []))
    = some (0xFFFFFF12#32, 0x1004#32, none) := by decide
theorem test_andi : after 5 (step (start 0xF0037293 0x1000#32 [(6, 0x12345678#32)] []))
    = some (0x12345600#32, 0x1004#32, none) := by decide
theorem test_slli : after 5 (step (start 0x01F31293 0x1000#32 [(6, 3#32)] []))
    = some (0x80000000#32, 0x1004#32, none) := by decide
theorem test_srli : after 5 (step (start 0x00435293 0x1000#32 [(6, 0x87654321#32)] []))
    = some (0x08765432#32, 0x1004#32, none) := by decide
theorem test_srai : after 5 (step (start 0x40435293 0x1000#32 [(6, 0x87654321#32)] []))
    = some (0xF8765432#32, 0x1004#32, none) := by decide
theorem test_add : after 5 (step (start 0x005282B3 0x1000#32 [(5, 0x40000001#32)] []))
    = some (0x80000002#32, 0x1004#32, none) := by decide
theorem test_sub : after 5 (step (start 0x407302B3 0x1000#32 [(7, 1#32)] []))
    = some (0xFFFFFFFF#32, 0x1004#32, none) := by decide
theorem test_sll : after 5 (step (start 0x007312B3 0x1000#32 [(6, 1#32), (7, 0x20#32)] []))
    = some (1#32, 0x1004#32, none) := by decide
theorem test_slt : after 5 (step (start 0x007322B3 0x1000#32 [(6, 0x80000000#32), (7, 0x7FFFFFFF#32)] []))
    = some (1#32, 0x1004#32, none) := by decide
theorem test_sltu : after 5 (step (start 0x007332B3 0x1000#32 [(6, 1#32), (7, 0xFFFFFFFF#32)] []))
    = some (1#32, 0x1004#32, none) := by decide
theorem test_xor : after 5 (step (start 0x007342B3 0x1000#32 [(6, 0xFF00FF00#32), (7, 0x0FF00FF0#32)] []))
    = some (0xF0F0F0F0#32, 0x1004#32, none) := by decide
theorem test_srl : after 5 (step (start 0x007352B3 0x1000#32 [(6, 0x80000000#32), (7, 0x21#32)] []))
    = some (0x40000000#32, 0x1004#32, none) := by decide
theorem test_sra : after 5 (step (start 0x407352B3 0x1000#32 [(6, 0x80000000#32), (7, 0x24#32)] []))
    = some (0xF8000000#32, 0x1004#32, none) := by decide
theorem test_or : after 5 (step (start 0x007362B3 0x1000#32 [(6, 0xFF00FF00#32), (7, 0x0FF00FF0#32)] []))
    = some (0xFFF0FFF0#32, 0x1004#32, none) := by decide
theorem test_and : after 5 (step (start 0x007372B3 0x1000#32 [(6, 0xFF00FF00#32), (7, 0x0FF00FF0#32)] []))
    = some (0x0F000F00#32, 0x1004#32, none) := by decide
theorem test_fence : after 5 (step (start 0x0FF0000F 0x1000#32 [(5, 7#32)] []))
    = some (7#32, 0x1004#32, none) := by decide
theorem test_fence_tso : after 5 (step (start 0x8330000F 0x1000#32 [(5, 7#32)] []))
    = some (7#32, 0x1004#32, none) := by decide
theorem test_ecall : after 5 (step (start 0x00000073 0x1014#32 [(5, 7#32)] []))
    = some (7#32, 0x1014#32, some ⟨.environmentCall, 0x1014#32, 0#32⟩) := by decide
theorem test_ebreak : after 5 (step (start 0x00100073 0x1010#32 [(5, 7#32)] []))
    = some (7#32, 0x1010#32, some ⟨.breakpoint, 0x1010#32, 0x1010#32⟩) := by decide
/-- A reserved word of part 2, and a run that has ended (R252). -/
theorem test_illegal_word : after 6 (step (start 0x02031293 0x1000#32 [(6, 1#32)] []))
    = some (1#32, 0x1000#32, some ⟨.illegalInstruction, 0x1000#32, 0x02031293#32⟩) := by decide
theorem test_run_ended :
    step (State.reset.setTrap (some ⟨.environmentCall, 0x1000#32, 0#32⟩))
      = .fault (.runEnded ⟨.environmentCall, 0x1000#32, 0#32⟩) := rfl

/-! ## Witnesses: hypotheses of the statements met by concrete states and operands -/

/-- The word of `addi x5, x0, 5` at the reset pc. -/
def ready : State := start 0x00500293 0x1000#32 [] []

/-- A map whose only region is one of `size` bytes from `base` on. -/
def oneRegion (base : Word) (size : Nat) (kind : RangeKind) : MemMap :=
  [{ base := base, size := size, kind := kind, fetch := true, load := true, store := true }]

/-- A state under another address map. -/
def withMap (map : MemMap) (s : State) : State := { s with cfg := { s.cfg with memMap := map } }

theorem witness_DecodeOfEncode :
    WellFormed (.bgeu 5 6 0x1FFE) = true ∧ WellFormed (.jal 1 0x0FFFFE) = true ∧
    WellFormed (.fence 8 3 1 3 2) = true ∧ WellFormed (.lw 5 6 8) = true := by decide

theorem witness_EncodeOfDecode : decode 0xFE629CE3#32 = .ok (.bne 5 6 0x1FF8) := by decide

theorem witness_NoWordMatchesTwoRows :
    rowI "ADDI" 0x00000013#32 .addi ∈ rows ∧
    (rowI "ADDI" 0x00000013#32 .addi).hits 0x00500293#32 = true ∧
    rowFenceTso.hits 0x8330000F#32 = true :=
  ⟨by simp [rows, rowsOpImm], by decide, by decide⟩

theorem witness_AcceptedWordsByFields : decode 0x00500293#32 = .ok (.addi 5 0 5) := by decide

theorem witness_HintCodePoints :
    decode 0x00128013#32 = .ok (.addi 0 5 1) ∧ isHint (.addi 0 5 1) = true ∧
    decode 0x00000013#32 = .ok nop ∧ isHint nop = false := by decide

theorem witness_StepRunsDecodedInstruction :
    ready.trap = none ∧ Claims.Fetchable ready ∧ Claims.HoldsWord ready 0x00500293#32 ∧
    decode 0x00500293#32 = .ok (.addi 5 0 5) := by
  unfold Claims.Fetchable Claims.HoldsWord; decide

theorem witness_StepRunsEncodedInstruction :
    ready.trap = none ∧ Claims.Fetchable ready ∧ WellFormed (.addi 5 0 5) = true ∧
    Claims.HoldsWord ready (encode (.addi 5 0 5)) := by
  unfold Claims.Fetchable Claims.HoldsWord; decide

theorem witness_PlacedWordRunsNext : decode (BitVec.ofNat 32 0x00500293) = .ok (.addi 5 0 5) := by decide

/-- The last of the four bytes is out of reach, the others are not. -/
theorem witness_FetchFaultComesFirst :
    let s := withMap (oneRegion 0 0x1003 .main) ready
    s.trap = none ∧ accessibleAt s.cfg.memMap .fetch (s.pc + 2#32) = true ∧
    ∃ k < 4, accessibleAt s.cfg.memMap .fetch (s.pc + BitVec.ofNat 32 k) = false := by decide

theorem witness_FetchOfStoredBytes :
    let s := ready.setStored ready.mem [0x1003]
    s.trap = none ∧ accessible s.cfg.memMap .fetch s.pc 4 = true ∧
    (∃ k < 4, (s.pc + BitVec.ofNat 32 k).toNat ∈ s.written) ∧ s.cfg.fetchAfterStore = .refuse := by
  decide

theorem witness_FetchOfStoredBytes_coherent :
    let s := { ready with written := [0x1000], cfg := { ready.cfg with fetchAfterStore := .coherent } }
    s.trap = none ∧ accessible s.cfg.memMap .fetch s.pc 4 = true ∧
    (∃ k < 4, (s.pc + BitVec.ofNat 32 k).toNat ∈ s.written) ∧ s.cfg.fetchAfterStore = .coherent := by
  decide

theorem witness_IllegalWordTraps :
    State.reset.trap = none ∧ Claims.Fetchable State.reset ∧ Claims.HoldsWord State.reset 0#32 ∧
    decode 0#32 = .error .shortLength := by
  unfold Claims.Fetchable Claims.HoldsWord; decide

theorem witness_FetchFromDevice :
    let s := withMap (oneRegion 0x1000#32 4 .io) ready
    s.trap = none ∧ Claims.Fetchable s ∧
    ∀ k < 4, kindAt s.cfg.memMap (s.pc + BitVec.ofNat 32 k) = .io := by
  unfold Claims.Fetchable; decide

/-- A hart that has trapped, with one reply of the EE and with none. -/
def trapped (ee : List HartImage) : State :=
  { State.reset with trap := some ⟨.environmentCall, 0x1000#32, 0#32⟩, ee := ee }

theorem witness_AfterTrapEndsOrResumes :
    (trapped []).trap = some ⟨.environmentCall, 0x1000#32, 0#32⟩ ∧ (trapped []).ee = [] ∧
    (trapped [HartImage.atReset]).trap = some ⟨.environmentCall, 0x1000#32, 0#32⟩ ∧
    (trapped [HartImage.atReset]).ee = HartImage.atReset :: [] := by decide

theorem witness_TrapIsPrecise_and_TrapCausesByInstruction :
    State.reset.trap = none ∧
    exec .ecall State.reset = .next (trapped []) ∧
    (trapped []).trap = some ⟨.environmentCall, 0x1000#32, 0#32⟩ := ⟨rfl, rfl, rfl⟩

/-- A running state with a stored-to byte, and a stopped one that the EE resumes. -/
theorem witness_StepKeepsInvariant :
    let s := ready.setStored ready.mem [0x2000]
    (s.Inv ∧ ∃ t, step s = .next t) ∧
    ((trapped [HartImage.atReset]).Inv ∧ ∃ t, step (trapped [HartImage.atReset]) = .next t) := by
  refine ⟨⟨⟨by decide, by decide, by decide, by decide, ?_, by decide⟩, _, rfl⟩,
    ⟨⟨by decide, by decide, by decide, by decide, ?_, by decide⟩, _, rfl⟩⟩
  · intro r hr
    cases hr
  · intro r hr
    cases hr
    exact ⟨rfl, rfl⟩

theorem witness_InvariantAtStart :
    Memory.wf [(0x1000, 0x73#8)] ∧ ∀ e ∈ [HartImage.atReset], Memory.wf e.mem := by decide

theorem witness_StartState : (5#5 : Reg) ≠ 0#5 ∧ (31#5 : Reg) ≠ 0#5 := by decide

theorem witness_StepKeepsHistory :
    (∃ t, step ready = .next t) ∧ ∃ t, step (trapped [HartImage.atReset]) = .next t :=
  ⟨⟨_, rfl⟩, ⟨_, rfl⟩⟩

/-- ADDI is no store, no load, no transfer and no AUIPC, and it completes without a trap. -/
theorem witness_whole_machine_rules :
    Claims.isStore (.addi 5 0 5) = false ∧ Claims.isLoad (.addi 5 0 5) = false ∧
    Claims.isTransfer (.addi 5 0 5) = false ∧ (∀ rd imm, Instr.addi 5 0 5 ≠ .auipc rd imm) ∧
    State.reset.trap = none ∧ ∃ t, exec (.addi 5 0 5) State.reset = .next t ∧ t.trap = none :=
  ⟨rfl, rfl, rfl, by simp, rfl, _, rfl, rfl⟩

theorem witness_RegisterFileBehaves : (5#5 : Reg) ≠ 0#5 ∧ (6#5 : Reg) ≠ 5#5 := by decide

theorem witness_HintsOnlyAdvancePc :
    computationalDest (.addi 0 5 1) = some 0#5 ∧ computationalDest (.lui 0 1) = some 0#5 := by decide

/-- A word that each row with the mask 0x0000007F selects, for the clause that a row names its words. -/
theorem witness_rows_upper : ∀ p ∈ ([
      (0x123452B7, 0x00000037), (0x00001297, 0x00000017), (0x008000EF, 0x0000006F)] : List (Word × Word)),
    p.1 &&& 0x0000007F#32 = p.2 := by simp

/-- A word that each row with the mask 0x0000707F selects, for the clause that a row names its words. -/
theorem witness_rows_funct3 : ∀ p ∈ ([
      (0x004280E7, 0x00000067), (0x00628463, 0x00000063), (0xFE629CE3, 0x00001063), (0x0062C863, 0x00004063),
      (0x0062D863, 0x00005063), (0x0062E863, 0x00006063), (0x0062F863, 0x00007063), (0x00130283, 0x00000003),
      (0xFFE31283, 0x00001003), (0x00832283, 0x00002003), (0x00134283, 0x00004003), (0x00035283, 0x00005003),
      (0x000300A3, 0x00000023), (0x00731223, 0x00001023), (0x00732423, 0x00002023), (0xFFF30293, 0x00000013),
      (0xFFF32293, 0x00002013), (0xFFF33293, 0x00003013), (0x55534293, 0x00004013), (0xF0036293, 0x00006013),
      (0x0FF37293, 0x00007013), (0x0FF0000F, 0x0000000F)] : List (Word × Word)),
    p.1 &&& 0x0000707F#32 = p.2 := by simp

/-- A word that each row with the mask 0xFE00707F selects, for the clause that a row names its words. -/
theorem witness_rows_funct7 : ∀ p ∈ ([
      (0x00431293, 0x00001013), (0x00435293, 0x00005013), (0x40435293, 0x40005013), (0x007302B3, 0x00000033),
      (0x407302B3, 0x40000033), (0x007312B3, 0x00001033), (0x007322B3, 0x00002033), (0x007332B3, 0x00003033),
      (0x007342B3, 0x00004033), (0x007352B3, 0x00005033), (0x407352B3, 0x40005033), (0x007362B3, 0x00006033),
      (0x007372B3, 0x00007033)] : List (Word × Word)),
    p.1 &&& 0xFE00707F#32 = p.2 := by simp

/-- A word that each row with the mask 0xFFF0707F selects, for the clause that a row names its words. -/
theorem witness_rows_tso : ∀ p ∈ ([
      (0x8330000F, 0x8330000F)] : List (Word × Word)),
    p.1 &&& 0xFFF0707F#32 = p.2 := by simp

/-- A word that each row with the mask 0xFFFFFFFF selects, for the clause that a row names its words. -/
theorem witness_rows_system : ∀ p ∈ ([
      (0x00000073, 0x00000073), (0x00100073, 0x00100073)] : List (Word × Word)),
    p.1 &&& 0xFFFFFFFF#32 = p.2 := by simp

/-- The reserved neighbours of the shift encodings in part 2. -/
theorem witness_ShiftImmediates :
    0x02031293#32 &&& 0x0000707F#32 = 0x00001013#32 ∧ (0x02031293#32 : Word).toNat / 2 ^ 25 ≠ 0 ∧
    0x20035293#32 &&& 0x0000707F#32 = 0x00005013#32 ∧ (0x20035293#32 : Word).toNat / 2 ^ 25 ≠ 0 ∧
    (0x20035293#32 : Word).toNat / 2 ^ 25 ≠ 0x20 := by decide

/-- Offsets at the ends of the range: 1048572 is aligned, 1048574 is not (example E7). -/
theorem witness_JalJumpsAndLinks :
    (BitVec.ofInt 32 (State.reset.pc.toInt + (0x0FFFFC#21).toInt)).toNat % 4 = 0 ∧
    (BitVec.ofInt 32 (State.reset.pc.toInt + (0x0FFFFE#21).toInt)).toNat % 4 ≠ 0 := by decide

/-- `4(x5)` with x5 = 0x2001 and 0x2003: bit 0 is cleared, bit 1 decides. -/
theorem witness_JalrJumpsAndLinks :
    let target (s : State) : Word :=
      BitVec.ofNat 32 (2 * ((BitVec.ofInt 32 ((s.x 5).toInt + (4#12).toInt) : Word).toNat / 2))
    (target (State.reset.setX 5 0x2001#32)).toNat % 4 = 0 ∧
    (target (State.reset.setX 5 0x2003#32)).toNat % 4 ≠ 0 := by decide

theorem witness_FarJumpsReachEveryTarget :
    (1#5 : Reg) ≠ 0#5 ∧ (0x12345678#32 : Word).toNat % 4 = 0 ∧
    (State.reset.pc + 0xFFFFFFFC#32).toNat % 4 = 0 := by decide

/-- Registers on which the conditions of the six branches hold and fail. -/
def branchState (x5 x6 : Word) : State := (State.reset.setX 5 x5).setX 6 x6

/-- An aligned and a misaligned target, of 4092 and of 4094 (example E7). -/
theorem witness_branch_targets :
    (BitVec.ofInt 32 (State.reset.pc.toInt + (0x0FFC#13).toInt)).toNat % 4 = 0 ∧
    (BitVec.ofInt 32 (State.reset.pc.toInt + (0x0FFE#13).toInt)).toNat % 4 ≠ 0 ∧
    (branchState 0 0).pc = State.reset.pc := by decide

theorem witness_EqualityBranches :
    (branchState 7 7).x 5 = (branchState 7 7).x 6 ∧ ¬ (branchState 7 8).x 5 = (branchState 7 8).x 6 ∧
    (branchState 7 8).x 5 ≠ (branchState 7 8).x 6 ∧ ¬ (branchState 7 7).x 5 ≠ (branchState 7 7).x 6 := by
  decide

theorem witness_SignedBranches :
    ((branchState 0xFFFFFFFF#32 1).x 5).toInt < ((branchState 0xFFFFFFFF#32 1).x 6).toInt ∧
    ¬ ((branchState 4 4).x 5).toInt < ((branchState 4 4).x 6).toInt ∧
    ((branchState 4 4).x 5).toInt ≥ ((branchState 4 4).x 6).toInt ∧
    ¬ ((branchState 0x80000000#32 0).x 5).toInt ≥ ((branchState 0x80000000#32 0).x 6).toInt := by decide

theorem witness_UnsignedBranches :
    ((branchState 1 0xFFFFFFFF#32).x 5).toNat < ((branchState 1 0xFFFFFFFF#32).x 6).toNat ∧
    ¬ ((branchState 6 6).x 5).toNat < ((branchState 6 6).x 6).toNat ∧
    ((branchState 9 9).x 5).toNat ≥ ((branchState 9 9).x 6).toNat ∧
    ¬ ((branchState 0 1).x 5).toNat ≥ ((branchState 0 1).x 6).toNat := by decide

theorem witness_BltuChecksBounds :
    0 ≤ ((branchState 0xFFFFFFFF#32 8).x 6).toInt ∧
    (BitVec.ofInt 32 ((branchState 0xFFFFFFFF#32 8).pc.toInt + (8#13).toInt)).toNat % 4 = 0 := by decide

/-- A base register x6 and an address map. -/
def dataState (x6 : Word) (map : MemMap) : State := withMap map (State.reset.setX 6 x6)

/-- `8(x6)`: misaligned for a word and a halfword by one, and for a word by two. -/
theorem witness_misaligned_accesses :
    let s1 := dataState 0x2001#32 MemMap.allMain
    let s2 := dataState 0x2002#32 MemMap.allMain
    s1.cfg.misaligned = .trap ∧ (effectiveAddress 6 8 s1).toNat % 4 ≠ 0 ∧
    (effectiveAddress 6 8 s1).toNat % 2 ≠ 0 ∧
    s2.cfg.misaligned = .trap ∧ (effectiveAddress 6 8 s2).toNat % 4 ≠ 0 := by decide

/-- Aligned and accessible, and an access whose last byte is out of reach, for 4, 2 and 1 bytes. -/
theorem witness_aligned_accesses :
    let s := dataState 0x2000#32 MemMap.allMain
    let out (n : Nat) := dataState 0x2000#32 (oneRegion 0x2000#32 (8 + n - 1) .main)
    (∀ n ∈ [1, 2, 4], (effectiveAddress 6 8 s).toNat % n = 0 ∧
      accessible s.cfg.memMap .load (effectiveAddress 6 8 s) n = true ∧
      accessible s.cfg.memMap .store (effectiveAddress 6 8 s) n = true ∧
      touchesIo s.cfg.memMap (effectiveAddress 6 8 s) n = false) ∧
    (∀ n ∈ [1, 2, 4], (effectiveAddress 6 8 (out n)).toNat % n = 0 ∧
      accessible (out n).cfg.memMap .load (effectiveAddress 6 8 (out n)) n = false ∧
      accessible (out n).cfg.memMap .store (effectiveAddress 6 8 (out n)) n = false) := by decide

/-- A misaligned access under `support`, and one that touches a device. -/
theorem witness_support_and_device :
    let s := { dataState 0x2001#32 (oneRegion 0x2000#32 16 .io) with
      cfg := { dataState 0x2001#32 (oneRegion 0x2000#32 16 .io) |>.cfg with misaligned := .support } }
    s.cfg.misaligned = .support ∧ (effectiveAddress 6 8 s).toNat % 4 ≠ 0 ∧
    accessible s.cfg.memMap .load (effectiveAddress 6 8 s) 4 = true ∧
    accessible s.cfg.memMap .store (effectiveAddress 6 8 s) 4 = true ∧
    kindAt s.cfg.memMap (effectiveAddress 6 8 s + BitVec.ofNat 32 3) = .io := by decide

/-- The second clause of ByteAddressInvariance: byte 3 of the word, through the same base. -/
theorem witness_ByteAddressInvariance :
    let s := dataState 0x2000#32 MemMap.allMain
    3 < 4 ∧ effectiveAddress 6 11 s = effectiveAddress 6 8 s + BitVec.ofNat 32 3 := by decide

theorem witness_FencesOnlyAdvancePc :
    0x8330000F#32 &&& 0x0000707F#32 = 0x0000000F#32 ∧ 0x8330000F#32 &&& 0xFFF0707F#32 = 0x8330000F#32 ∧
    0x0FF0000F#32 &&& 0x0000707F#32 = 0x0000000F#32 ∧ 0x0FF0000F#32 &&& 0xFFF0707F#32 ≠ 0x8330000F#32 := by
  decide

theorem witness_Ecall_and_Ebreak :
    State.reset.ee = [] ∧ (trapped [HartImage.atReset]).ee = HartImage.atReset :: [] := by decide

end Sys2Proof.Tests
end

/-! SUPPORT. The decoder through its rows: a word that a row selects decodes to that row's instruction
(R84, R87), and a word that no row selects decodes to none (R88). -/

namespace Sys2Proof

/-! ## Masks and patterns -/

/-- Two mask-and-pattern pairs that one word matches agree wherever both masks look. -/
theorem patterns_agree {w m p m' p' : Word} (h : w &&& m = p) (h' : w &&& m' = p') :
    p &&& m' = p' &&& m := by
  subst h h'
  rw [BitVec.and_assoc, BitVec.and_assoc, BitVec.and_comm m]

/-- A word that matches a pattern has the pattern's bits wherever the mask is all ones. -/
theorem extractLsb'_of_and_eq {w m p : Word} {lo len : Nat} (h : w &&& m = p)
    (hm : m.extractLsb' lo len = BitVec.allOnes len) : w.extractLsb' lo len = p.extractLsb' lo len := by
  rw [← h, BitVec.extractLsb'_and, hm, BitVec.and_allOnes]

/-- `inst[31:25]` as a number. -/
theorem toNat_extractLsb'_funct7 (w : Word) : (w.extractLsb' 25 7).toNat = w.toNat / 2 ^ 25 := by
  rw [BitVec.extractLsb'_toNat, Nat.shiftRight_eq_div_pow]
  have := w.isLt
  omega

/-! ## Rows -/

theorem Row.hits_iff (r : Row) (w : Word) : r.hits w = true ↔ w &&& r.mask = r.pat := by
  simp [Row.hits]

/-- The patterns of two rows differ at a bit that both masks test. -/
abbrev Row.Clashes (p q : Row) : Prop := p.pat &&& q.mask ≠ q.pat &&& p.mask

/-- Rows that clash select no word in common. -/
theorem Row.Clashes.not_hits {p q : Row} {w : Word} (h : p.Clashes q) (hp : p.hits w = true) :
    ¬ q.hits w = true :=
  fun hq => h (patterns_agree ((p.hits_iff w).mp hp) ((q.hits_iff w).mp hq))

theorem rows_pairwise_clashes : rows.Pairwise Row.Clashes := by decide

/-- Every row but FENCE's, whose pattern is `0x0000000F`, clashes with FENCE.TSO's (R182). -/
theorem rowFenceTso_clashes : ∀ r ∈ rows, r.pat ≠ 0x0000000F#32 → rowFenceTso.Clashes r := by decide

/-- Steps 1 and 2 of R87 are implied by step 4: every row fixes the length bits to those of a 32-bit
instruction. -/
theorem rows_lengthBits : ∀ r ∈ rows,
    (r.mask.extractLsb' 0 2 = BitVec.allOnes 2 ∧ r.pat.extractLsb' 0 2 = 0b11#2) ∧
    (r.mask.extractLsb' 2 3 = BitVec.allOnes 3 ∧ r.pat.extractLsb' 2 3 ≠ 0b111#3) := by decide

/-- No word matches two rows of R84. -/
theorem row_eq_of_hits {w : Word} {p q : Row} (hp : p ∈ rows) (hq : q ∈ rows) (hpw : p.hits w = true)
    (hqw : q.hits w = true) : p = q := by
  by_contra hne
  have : Std.Symm Row.Clashes := ⟨fun _ _ h => h.symm⟩
  exact (rows_pairwise_clashes.forall hp hq hne).not_hits hpw hqw

/-- The search of R87 steps 3 and 4 finds the row that selects the word. -/
theorem find?_row_of_hits {w : Word} {r : Row} (hr : r ∈ rows) (hpat : r.pat ≠ 0x0000000F#32)
    (hw : r.hits w = true) : (rowFenceTso :: rows).find? (fun q => q.hits w) = some r := by
  have htso : ¬ rowFenceTso.hits w = true := fun h => (rowFenceTso_clashes r hr hpat).not_hits h hw
  rw [List.find?_cons_of_neg (p := fun q : Row => q.hits w) htso]
  cases hfind : rows.find? (fun q => q.hits w) with
  | none => exact absurd hw (List.find?_eq_none.mp hfind r hr)
  | some q =>
    have hqw : q.hits w = true := List.find?_some (p := fun q : Row => q.hits w) hfind
    rw [row_eq_of_hits (List.mem_of_find?_eq_some hfind) hr hqw hw]

/-- A word that a row of R84 selects decodes to the row's instruction; FENCE's row apart, whose words
FENCE.TSO comes first for (R87 step 3). -/
theorem decode_of_hits {w : Word} {r : Row} (hr : r ∈ rows) (hpat : r.pat ≠ 0x0000000F#32)
    (hw : r.hits w = true) : decode w = .ok (r.build w) := by
  obtain ⟨⟨hmask0, hpat0⟩, hmask2, hpat2⟩ := rows_lengthBits r hr
  have hand : w &&& r.mask = r.pat := (r.hits_iff w).mp hw
  have hshort : w.extractLsb' 0 2 = 0b11#2 := (extractLsb'_of_and_eq hand hmask0).trans hpat0
  have hlong : w.extractLsb' 2 3 ≠ 0b111#3 := extractLsb'_of_and_eq hand hmask2 ▸ hpat2
  simp only [decode, hshort, hlong, ne_eq, not_true_eq_false, if_false, find?_row_of_hits hr hpat hw]

/-- The clause that a row names its words, for every row but FENCE's. -/
theorem namesWords_of_mem {r : Row} (hr : r ∈ rows) (hpat : r.pat ≠ 0x0000000F#32) :
    Claims.NamesWords r.mask r.pat r.build :=
  fun w hw => decode_of_hits hr hpat ((r.hits_iff w).mpr hw)

/-- A word that no row selects is no instruction (R87 step 5). -/
theorem decode_error_of_not_hits {w : Word} (h : ∀ r ∈ rowFenceTso :: rows, ¬ r.hits w = true) :
    ∃ e, decode w = .error e := by
  have hfind : (rowFenceTso :: rows).find? (fun q => q.hits w) = none := List.find?_eq_none.mpr h
  simp only [decode, hfind]
  split_ifs <;> exact ⟨_, rfl⟩

/-- A word with the opcode and funct3 of `p` is no instruction when every row that shares them fixes
`inst[31:25]` to a value in `listed` and the word's is none of these (R88 item 4). -/
theorem decode_error_of_funct7 {w p : Word} (listed : List Nat) (hw : w &&& 0x0000707F#32 = p)
    (hrows : ∀ r ∈ rowFenceTso :: rows, p &&& r.mask = r.pat &&& 0x0000707F#32 →
      r.mask.extractLsb' 25 7 = BitVec.allOnes 7 ∧ r.pat.toNat / 2 ^ 25 ∈ listed)
    (hfunct7 : w.toNat / 2 ^ 25 ∉ listed) : ∃ e, decode w = .error e := by
  refine decode_error_of_not_hits fun r hr hit => hfunct7 ?_
  have hand : w &&& r.mask = r.pat := (r.hits_iff w).mp hit
  obtain ⟨hmask, hpat⟩ := hrows r hr (patterns_agree hw hand)
  rwa [← toNat_extractLsb'_funct7, extractLsb'_of_and_eq hand hmask, toNat_extractLsb'_funct7]

end Sys2Proof

/-! SUPPORT. What the operations on words compute, as numbers and bit by bit (R101 to R103, R76, R79). -/

namespace Sys2Proof.Machine

/-! ## Sums and differences (R101) -/

theorem add_eq_ofInt {n : Nat} (a b : BitVec n) : a + b = BitVec.ofInt n (a.toInt + b.toInt) := by
  rw [BitVec.ofInt_add, BitVec.ofInt_toInt, BitVec.ofInt_toInt]

theorem sub_eq_ofInt {n : Nat} (a b : BitVec n) : a - b = BitVec.ofInt n (a.toInt - b.toInt) := by
  rw [Int.sub_eq_add_neg, BitVec.ofInt_add, BitVec.ofInt_neg, BitVec.ofInt_toInt, BitVec.ofInt_toInt,
    BitVec.sub_eq_add_neg]

theorem toNat_sub_word (a b : Word) : (a - b).toNat = (a.toNat + 2 ^ 32 - b.toNat) % 2 ^ 32 := by
  have := b.isLt
  rw [BitVec.toNat_sub]
  omega

/-! ## Immediates (R76, R79, R81) -/

@[simp] theorem toInt_imm12 (imm : BitVec 12) : (imm12 imm).toInt = imm.toInt :=
  BitVec.toInt_signExtend_of_le (by omega)

/-- The sign-extended immediate read as unsigned. -/
theorem toNat_imm12 (imm : BitVec 12) : ((imm12 imm).toNat : Int) = imm.toInt % 2 ^ 32 := by
  have := (imm12 imm).isLt
  rw [← toInt_imm12, BitVec.toInt_eq_toNat_cond]
  split <;> omega

/-- Above bit 11 the sign-extended immediate repeats its sign. -/
theorem getLsbD_imm12 (imm : BitVec 12) {k : Nat} (hk : k < 32) :
    (imm12 imm).getLsbD k = imm.getLsbD (min k 11) := by
  rw [imm12, BitVec.getLsbD_signExtend]
  by_cases h : k < 12
  · simp [hk, h, Nat.min_eq_left (Nat.le_of_lt_succ h)]
  · simp [hk, h, Nat.min_eq_right (by omega : 11 ≤ k), BitVec.msb_eq_getLsbD_last]

@[simp] theorem toNat_immUpper (imm : BitVec 20) : (immUpper imm).toNat = imm.toNat * 2 ^ 12 :=
  (BitVec.toNat_append imm 0#12).trans (by simp [Nat.shiftLeft_eq])

/-! ## Comparisons (R102) -/

theorem flagWord_lessSigned (a b : Word) :
    flagWord (lessSigned a b) = if a.toInt < b.toInt then 1#32 else 0#32 := by
  simp [flagWord, lessSigned]

theorem flagWord_lessUnsigned (a b : Word) :
    flagWord (lessUnsigned a b) = if a.toNat < b.toNat then 1#32 else 0#32 := by
  simp [flagWord, lessUnsigned]

/-! ## Shifts (R103) -/

@[simp] theorem shiftAmount_eq (v : Word) : shiftAmount v = v.toNat % 32 := by
  simp [shiftAmount, BitVec.extractLsb'_toNat]

/-- A left shift multiplies, modulo 2^32. -/
theorem toNat_shiftLeft_word (a : Word) (n : Nat) : (a <<< n).toNat = a.toNat * 2 ^ n % 2 ^ 32 := by
  rw [BitVec.toNat_shiftLeft, Nat.shiftLeft_eq]

/-- A logical right shift divides the unsigned value. -/
theorem toNat_ushiftRight_word (a : Word) (n : Nat) : (a >>> n).toNat = a.toNat / 2 ^ n := by
  rw [BitVec.toNat_ushiftRight, Nat.shiftRight_eq_div_pow]

/-- An arithmetic right shift divides the signed value toward minus infinity. -/
theorem toInt_sshiftRight_word (a : Word) (n : Nat) :
    (a.sshiftRight n).toInt = a.toInt / (2 ^ n : Int) := by
  rw [BitVec.toInt_sshiftRight, Int.shiftRight_eq_div_pow]
  norm_cast

end Sys2Proof.Machine

/-! SUPPORT. The integer computational instructions as register writes (R100), and that such a write is
all that changes. -/

namespace Sys2Proof.Machine

/-! ## What a register write and an advance leave behind -/

/-- The register write of R100 changes `rd` and the pc, and nothing else. -/
theorem computes_writeReg (rd : Reg) (v : Word) (s : State) :
    Computes rd v s ((s.setX rd v).setPc (s.pc + 4#32)) :=
  ⟨x_setX s rd v, rfl, ⟨fun _ => rfl, rfl, rfl⟩, rfl, rfl, rfl, rfl⟩

/-- An advance changes the pc alone. -/
theorem continues_advance (s : State) : Continues (s.pc + 4#32) s (s.setPc (s.pc + 4#32)) :=
  ⟨⟨fun _ => rfl, rfl⟩, rfl, ⟨fun _ => rfl, rfl, rfl⟩, rfl, rfl, rfl, rfl⟩

/-- An instruction whose meaning is a register write computes. -/
theorem exec_computes {i : Instr} {s : State} {rd : Reg} {v : Word} (h : exec i s = writeReg rd v s) :
    ∃ t, exec i s = .next t ∧ Computes rd v s t :=
  ⟨_, h.trans (writeReg_eq rd v s), computes_writeReg rd v s⟩

/-- The same, with what is known of the value written. -/
theorem exec_computes_value {i : Instr} {s : State} {rd : Reg} {v : Word} {P : Word → Prop}
    (h : exec i s = writeReg rd v s) (hv : P v) :
    ∃ t u, exec i s = .next t ∧ Computes rd u s t ∧ P u :=
  let ⟨t, hexec, hcomputes⟩ := exec_computes h
  ⟨t, v, hexec, hcomputes, hv⟩

/-! ## Register-immediate instructions (R104 to R114) -/

theorem exec_addi (rd rs1 : Reg) (imm : BitVec 12) (s : State) :
    exec (.addi rd rs1 imm) s = writeReg rd (s.x rs1 + imm12 imm) s := rfl

theorem exec_slti (rd rs1 : Reg) (imm : BitVec 12) (s : State) :
    exec (.slti rd rs1 imm) s = writeReg rd (flagWord (lessSigned (s.x rs1) (imm12 imm))) s := rfl

theorem exec_sltiu (rd rs1 : Reg) (imm : BitVec 12) (s : State) :
    exec (.sltiu rd rs1 imm) s = writeReg rd (flagWord (lessUnsigned (s.x rs1) (imm12 imm))) s := rfl

theorem exec_andi (rd rs1 : Reg) (imm : BitVec 12) (s : State) :
    exec (.andi rd rs1 imm) s = writeReg rd (s.x rs1 &&& imm12 imm) s := rfl

theorem exec_ori (rd rs1 : Reg) (imm : BitVec 12) (s : State) :
    exec (.ori rd rs1 imm) s = writeReg rd (s.x rs1 ||| imm12 imm) s := rfl

theorem exec_xori (rd rs1 : Reg) (imm : BitVec 12) (s : State) :
    exec (.xori rd rs1 imm) s = writeReg rd (s.x rs1 ^^^ imm12 imm) s := rfl

theorem exec_slli (rd rs1 : Reg) (shamt : BitVec 5) (s : State) :
    exec (.slli rd rs1 shamt) s = writeReg rd (s.x rs1 <<< shamt.toNat) s := rfl

theorem exec_srli (rd rs1 : Reg) (shamt : BitVec 5) (s : State) :
    exec (.srli rd rs1 shamt) s = writeReg rd (s.x rs1 >>> shamt.toNat) s := rfl

theorem exec_srai (rd rs1 : Reg) (shamt : BitVec 5) (s : State) :
    exec (.srai rd rs1 shamt) s = writeReg rd ((s.x rs1).sshiftRight shamt.toNat) s := rfl

theorem exec_lui (rd : Reg) (imm : BitVec 20) (s : State) :
    exec (.lui rd imm) s = writeReg rd (immUpper imm) s := rfl

theorem exec_auipc (rd : Reg) (imm : BitVec 20) (s : State) :
    exec (.auipc rd imm) s = writeReg rd (s.pc + immUpper imm) s := rfl

/-! ## Register-register instructions (R115 to R124) -/

theorem exec_add (rd rs1 rs2 : Reg) (s : State) :
    exec (.add rd rs1 rs2) s = writeReg rd (s.x rs1 + s.x rs2) s := rfl

theorem exec_sub (rd rs1 rs2 : Reg) (s : State) :
    exec (.sub rd rs1 rs2) s = writeReg rd (s.x rs1 - s.x rs2) s := rfl

theorem exec_sll (rd rs1 rs2 : Reg) (s : State) :
    exec (.sll rd rs1 rs2) s = writeReg rd (s.x rs1 <<< shiftAmount (s.x rs2)) s := rfl

theorem exec_slt (rd rs1 rs2 : Reg) (s : State) :
    exec (.slt rd rs1 rs2) s = writeReg rd (flagWord (lessSigned (s.x rs1) (s.x rs2))) s := rfl

theorem exec_sltu (rd rs1 rs2 : Reg) (s : State) :
    exec (.sltu rd rs1 rs2) s = writeReg rd (flagWord (lessUnsigned (s.x rs1) (s.x rs2))) s := rfl

theorem exec_xor (rd rs1 rs2 : Reg) (s : State) :
    exec (.xor rd rs1 rs2) s = writeReg rd (s.x rs1 ^^^ s.x rs2) s := rfl

theorem exec_srl (rd rs1 rs2 : Reg) (s : State) :
    exec (.srl rd rs1 rs2) s = writeReg rd (s.x rs1 >>> shiftAmount (s.x rs2)) s := rfl

theorem exec_sra (rd rs1 rs2 : Reg) (s : State) :
    exec (.sra rd rs1 rs2) s = writeReg rd ((s.x rs1).sshiftRight (shiftAmount (s.x rs2))) s := rfl

theorem exec_or (rd rs1 rs2 : Reg) (s : State) :
    exec (.or rd rs1 rs2) s = writeReg rd (s.x rs1 ||| s.x rs2) s := rfl

theorem exec_and (rd rs1 rs2 : Reg) (s : State) :
    exec (.and rd rs1 rs2) s = writeReg rd (s.x rs1 &&& s.x rs2) s := rfl

/-! ## Pseudo-instructions (R125 to R129) -/

theorem exec_pseudoMv (rd rs : Reg) (s : State) :
    exec (pseudoMv rd rs) s = writeReg rd (s.x rs) s := by
  have hzero : imm12 0#12 = 0#32 := by decide
  rw [pseudoMv, exec_addi, hzero, BitVec.add_zero]

theorem exec_pseudoSeqz (rd rs : Reg) (s : State) :
    exec (pseudoSeqz rd rs) s = writeReg rd (if s.x rs = 0#32 then 1#32 else 0#32) s := by
  have hone : (imm12 1#12).toNat = 1 := by decide
  have hzero : (s.x rs).toNat < 1 ↔ s.x rs = 0#32 := by simp [BitVec.toNat_eq]
  simp only [pseudoSeqz, exec_sltiu, flagWord_lessUnsigned, hone, hzero]

theorem exec_pseudoNot (rd rs : Reg) (s : State) :
    exec (pseudoNot rd rs) s = writeReg rd (s.x rs ^^^ 0xFFFFFFFF#32) s := by
  have hones : imm12 0xFFF#12 = 0xFFFFFFFF#32 := by decide
  rw [pseudoNot, exec_xori, hones]

theorem exec_pseudoSnez (rd rs : Reg) (s : State) :
    exec (pseudoSnez rd rs) s = writeReg rd (if s.x rs ≠ 0#32 then 1#32 else 0#32) s := by
  have hpos : (0#32).toNat < (s.x rs).toNat ↔ s.x rs ≠ 0#32 := by
    simp [BitVec.toNat_eq, Nat.pos_iff_ne_zero]
  simp only [pseudoSnez, exec_sltu, x_zero, flagWord_lessUnsigned, hpos]

/-- The NOP's register write is discarded (R21, R129). -/
theorem exec_nop (s : State) : exec nop s = advance s := by
  rw [nop, exec_addi, writeReg, setX_zero]

end Sys2Proof.Machine

/-! The statements on the integer computational instructions (R104 to R129). Each has two parts: its
rows name their words, and the value that each instruction writes is the number the rule gives. -/

namespace Sys2Proof.Proofs

open Sys2Proof.Machine

/-- Settles O30: the sum of the words is the sum of their signed values, modulo 2^32. -/
theorem addiAddsSignedImmediate : Obligations.AddiAddsSignedImmediate := by
  refine ⟨namesWords_of_mem (r := rowI "ADDI" 0x00000013#32 .addi) (by simp [rows, rowsOpImm])
    (by decide), fun rd rs1 imm s => exec_computes_value (exec_addi rd rs1 imm s) ?_⟩
  simp only [add_eq_ofInt (s.x rs1), toInt_imm12]

/-- Settles O31: sign extension keeps the signed value, and its unsigned value is that modulo 2^32. -/
theorem setLessThanImmediate : Obligations.SetLessThanImmediate := by
  refine ⟨⟨namesWords_of_mem (r := rowI "SLTI" 0x00002013#32 .slti) (by simp [rows, rowsOpImm])
      (by decide), fun rd rs1 imm s => exec_computes_value (exec_slti rd rs1 imm s) ?_⟩,
    ⟨namesWords_of_mem (r := rowI "SLTIU" 0x00003013#32 .sltiu) (by simp [rows, rowsOpImm])
      (by decide), fun rd rs1 imm s => exec_computes_value (exec_sltiu rd rs1 imm s) ?_⟩⟩
  · simp only [flagWord_lessSigned, toInt_imm12]
  · simp only [flagWord_lessUnsigned, ← toNat_imm12, Nat.cast_lt]

/-- Settles O32: bit `k` of the operation is the operation on the two bits, and the sign-extended
immediate repeats its bit 11. -/
theorem logicalImmediates : Obligations.LogicalImmediates := by
  refine ⟨⟨namesWords_of_mem (r := rowI "ANDI" 0x00007013#32 .andi) (by simp [rows, rowsOpImm])
      (by decide), fun rd rs1 imm s => exec_computes_value (exec_andi rd rs1 imm s) fun k hk => ?_⟩,
    ⟨namesWords_of_mem (r := rowI "ORI" 0x00006013#32 .ori) (by simp [rows, rowsOpImm])
      (by decide), fun rd rs1 imm s => exec_computes_value (exec_ori rd rs1 imm s) fun k hk => ?_⟩,
    ⟨namesWords_of_mem (r := rowI "XORI" 0x00004013#32 .xori) (by simp [rows, rowsOpImm])
      (by decide), fun rd rs1 imm s => exec_computes_value (exec_xori rd rs1 imm s) fun k hk => ?_⟩⟩
  · rw [BitVec.getLsbD_and, getLsbD_imm12 imm hk]
  · rw [BitVec.getLsbD_or, getLsbD_imm12 imm hk]
  · rw [BitVec.getLsbD_xor, getLsbD_imm12 imm hk]

/-- Settles O33: shifts are products and quotients by a power of 2. Of the rows with their funct3, SLLI's
alone, and SRLI's and SRAI's alone, fix `inst[31:25]`, so every other value is reserved. -/
theorem shiftImmediates : Obligations.ShiftImmediates := by
  refine ⟨⟨namesWords_of_mem (r := rowShift "SLLI" 0x00001013#32 .slli) (by simp [rows, rowsOpImm])
      (by decide), fun rd rs1 shamt s => exec_computes_value (exec_slli rd rs1 shamt s) ?_⟩,
    ⟨namesWords_of_mem (r := rowShift "SRLI" 0x00005013#32 .srli) (by simp [rows, rowsOpImm])
      (by decide), fun rd rs1 shamt s => exec_computes_value (exec_srli rd rs1 shamt s) ?_⟩,
    ⟨namesWords_of_mem (r := rowShift "SRAI" 0x40005013#32 .srai) (by simp [rows, rowsOpImm])
      (by decide), fun rd rs1 shamt s => exec_computes_value (exec_srai rd rs1 shamt s) ?_⟩,
    fun w hw hne => ?_, fun w hw hne hne' => ?_⟩
  · exact toNat_shiftLeft_word (s.x rs1) shamt.toNat
  · exact toNat_ushiftRight_word (s.x rs1) shamt.toNat
  · exact toInt_sshiftRight_word (s.x rs1) shamt.toNat
  · exact decode_error_of_funct7 [0] hw (by decide) (mt List.mem_singleton.mp hne)
  · exact decode_error_of_funct7 [0, 0x20] hw (by decide) 
      (List.not_mem_cons_of_ne_of_not_mem hne (mt List.mem_singleton.mp hne'))

/-- Settles O34: the twelve zeros below the immediate multiply it by 2^12. -/
theorem upperImmediates : Obligations.UpperImmediates := by
  refine ⟨?_, ?_, fun rd imm s => exec_computes_value (exec_lui rd imm s) (toNat_immUpper imm),
    fun rd imm s => exec_computes_value (exec_auipc rd imm s) ?_⟩
  · exact namesWords_of_mem
      (r := ⟨"LUI", 0x0000007F#32, 0x00000037#32, fun w => .lui (rdField w) (immUField w)⟩)
      (by simp [rows, rowsUpperAndJump]) (by decide)
  · exact namesWords_of_mem
      (r := ⟨"AUIPC", 0x0000007F#32, 0x00000017#32, fun w => .auipc (rdField w) (immUField w)⟩)
      (by simp [rows, rowsUpperAndJump]) (by decide)
  · rw [BitVec.toNat_add, toNat_immUpper]

/-- Settles O35: a sum or difference of words is that of their values, unsigned or signed, modulo
2^32. -/
theorem addAndSubtract : Obligations.AddAndSubtract :=
  ⟨⟨namesWords_of_mem (r := rowR "ADD" 0x00000033#32 .add) (by simp [rows, rowsOp]) (by decide),
      fun rd rs1 rs2 s => exec_computes_value (exec_add rd rs1 rs2 s)
        ⟨BitVec.toNat_add (s.x rs1) (s.x rs2), add_eq_ofInt (s.x rs1) (s.x rs2)⟩⟩,
    ⟨namesWords_of_mem (r := rowR "SUB" 0x40000033#32 .sub) (by simp [rows, rowsOp]) (by decide),
      fun rd rs1 rs2 s => exec_computes_value (exec_sub rd rs1 rs2 s)
        ⟨toNat_sub_word (s.x rs1) (s.x rs2), sub_eq_ofInt (s.x rs1) (s.x rs2)⟩⟩⟩

/-- Settles O36: the flag word is 1 exactly when the comparison of the values holds. -/
theorem setLessThan : Obligations.SetLessThan :=
  ⟨⟨namesWords_of_mem (r := rowR "SLT" 0x00002033#32 .slt) (by simp [rows, rowsOp]) (by decide),
      fun rd rs1 rs2 s => exec_computes_value (exec_slt rd rs1 rs2 s)
        (flagWord_lessSigned (s.x rs1) (s.x rs2))⟩,
    ⟨namesWords_of_mem (r := rowR "SLTU" 0x00003033#32 .sltu) (by simp [rows, rowsOp]) (by decide),
      fun rd rs1 rs2 s => exec_computes_value (exec_sltu rd rs1 rs2 s)
        (flagWord_lessUnsigned (s.x rs1) (s.x rs2))⟩⟩

/-- Settles O37: bit `k` of the operation is the operation on the two bits. -/
theorem logicalRegisters : Obligations.LogicalRegisters :=
  ⟨⟨namesWords_of_mem (r := rowR "AND" 0x00007033#32 .and) (by simp [rows, rowsOp]) (by decide),
      fun rd rs1 rs2 s => exec_computes_value (exec_and rd rs1 rs2 s)
        fun _ _ => BitVec.getLsbD_and⟩,
    ⟨namesWords_of_mem (r := rowR "OR" 0x00006033#32 .or) (by simp [rows, rowsOp]) (by decide),
      fun rd rs1 rs2 s => exec_computes_value (exec_or rd rs1 rs2 s)
        fun _ _ => BitVec.getLsbD_or⟩,
    ⟨namesWords_of_mem (r := rowR "XOR" 0x00004033#32 .xor) (by simp [rows, rowsOp]) (by decide),
      fun rd rs1 rs2 s => exec_computes_value (exec_xor rd rs1 rs2 s)
        fun _ _ => BitVec.getLsbD_xor⟩⟩

/-- Settles O38: as O33, with the low five bits of `x[rs2]`, its value modulo 32, as the amount. -/
theorem shiftRegisters : Obligations.ShiftRegisters := by
  refine ⟨⟨namesWords_of_mem (r := rowR "SLL" 0x00001033#32 .sll) (by simp [rows, rowsOp])
      (by decide), fun rd rs1 rs2 s => exec_computes_value (exec_sll rd rs1 rs2 s) ?_⟩,
    ⟨namesWords_of_mem (r := rowR "SRL" 0x00005033#32 .srl) (by simp [rows, rowsOp])
      (by decide), fun rd rs1 rs2 s => exec_computes_value (exec_srl rd rs1 rs2 s) ?_⟩,
    ⟨namesWords_of_mem (r := rowR "SRA" 0x40005033#32 .sra) (by simp [rows, rowsOp])
      (by decide), fun rd rs1 rs2 s => exec_computes_value (exec_sra rd rs1 rs2 s) ?_⟩⟩
  · simp only [shiftAmount_eq, toNat_shiftLeft_word]
  · simp only [shiftAmount_eq, toNat_ushiftRight_word]
  · simp only [shiftAmount_eq, toInt_sshiftRight_word]

/-- Settles O39: each expansion is one register write, and the NOP's is discarded. -/
theorem pseudoInstructions : Obligations.PseudoInstructions :=
  ⟨fun rd rs s => ⟨exec_computes (exec_pseudoMv rd rs s), exec_computes (exec_pseudoSeqz rd rs s),
      exec_computes (exec_pseudoNot rd rs s), exec_computes (exec_pseudoSnez rd rs s)⟩,
    by decide, fun s => ⟨_, (exec_nop s).trans (advance_eq s), continues_advance s⟩⟩

end Sys2Proof.Proofs

/-! SUPPORT. The transfers of control (R140, R141, R146): what a transfer and a branch do to the state, by
the target modulo 4 and by the branch's condition. -/

namespace Sys2Proof.Machine

/-! ## Targets (R141, R146) -/

/-- Adding a sign-extended immediate adds its signed value, modulo 2^32. -/
theorem add_signExtend_eq_ofInt {n : Nat} (hn : n ≤ 32) (a : Word) (imm : BitVec n) :
    a + imm.signExtend 32 = BitVec.ofInt 32 (a.toInt + imm.toInt) := by
  rw [add_eq_ofInt, BitVec.toInt_signExtend_of_le hn]

theorem jalTarget_eq_ofInt (imm : BitVec 21) (s : State) :
    jalTarget imm s = BitVec.ofInt 32 (s.pc.toInt + imm.toInt) :=
  add_signExtend_eq_ofInt (by decide) s.pc imm

theorem branchTarget_eq_ofInt (imm : BitVec 13) (s : State) :
    branchTarget imm s = BitVec.ofInt 32 (s.pc.toInt + imm.toInt) :=
  add_signExtend_eq_ofInt (by decide) s.pc imm

/-! ## Conditions (R102) -/

theorem lessSigned_iff (a b : Word) : lessSigned a b = true ↔ a.toInt < b.toInt := by
  simp [lessSigned]

theorem lessUnsigned_iff (a b : Word) : lessUnsigned a b = true ↔ a.toNat < b.toNat := by
  simp [lessUnsigned]

theorem not_lessSigned_iff (a b : Word) : (!lessSigned a b) = true ↔ a.toInt ≥ b.toInt := by
  simp [lessSigned]

theorem not_lessUnsigned_iff (a b : Word) : (!lessUnsigned a b) = true ↔ a.toNat ≥ b.toNat := by
  simp [lessUnsigned]

/-! ## What a transfer leaves behind (R140) -/

/-- Setting the pc changes the pc alone. -/
theorem continues_setPc (t : Word) (s : State) : Continues t s (s.setPc t) :=
  ⟨⟨fun _ => rfl, rfl⟩, rfl, ⟨fun _ => rfl, rfl, rfl⟩, rfl, rfl, rfl, rfl⟩

/-- The link of R141 and the new pc are all that a jump changes. -/
theorem jumpsTo_setX_setPc (rd : Reg) (t : Word) (s : State) :
    Claims.JumpsTo rd t s ((s.setX rd s.nextPc).setPc t) :=
  ⟨x_setX s rd s.nextPc, rfl, ⟨fun _ => rfl, rfl, rfl⟩, rfl, rfl, rfl, rfl⟩

/-- The record is all that a trap changes (R222). -/
theorem takeTrap_trapTaken (c : Cause) (v : Word) (s : State) :
    ∃ t, takeTrap c v s = .next t ∧ TrapTaken c v s t :=
  ⟨_, takeTrap_eq c v s, rfl, ⟨fun _ => rfl, rfl⟩, rfl, ⟨fun _ => rfl, rfl, rfl⟩, rfl, rfl, rfl⟩

theorem transfer_of_aligned {t : Word} (h : t.toNat % 4 = 0) (after s : State) :
    transfer t after s = .next (after.setPc t) := by
  obtain ⟨_, hnext⟩ | ⟨hmisaligned, _⟩ := transfer_cases t after s
  · exact hnext
  · exact absurd h hmisaligned

/-- The trap comes before every write: `after` leaves no trace. -/
theorem transfer_of_misaligned {t : Word} (h : t.toNat % 4 ≠ 0) (after s : State) :
    ∃ u, transfer t after s = .next u ∧ TrapTaken .instructionAddressMisaligned t s u := by
  obtain ⟨haligned, _⟩ | ⟨_, htrap⟩ := transfer_cases t after s
  · exact absurd haligned h
  · rw [htrap]
    exact takeTrap_trapTaken _ t s

/-! ## Each instruction as a transfer or a branch (R141, R147 to R152) -/

theorem exec_jal (rd : Reg) (imm : BitVec 21) (s : State) :
    exec (.jal rd imm) s = transfer (jalTarget imm s) (s.setX rd s.nextPc) s := rfl

theorem exec_beq (rs1 rs2 : Reg) (imm : BitVec 13) (s : State) :
    exec (.beq rs1 rs2 imm) s = branch (s.x rs1 == s.x rs2) imm s := rfl

theorem exec_bne (rs1 rs2 : Reg) (imm : BitVec 13) (s : State) :
    exec (.bne rs1 rs2 imm) s = branch (s.x rs1 != s.x rs2) imm s := rfl

theorem exec_blt (rs1 rs2 : Reg) (imm : BitVec 13) (s : State) :
    exec (.blt rs1 rs2 imm) s = branch (lessSigned (s.x rs1) (s.x rs2)) imm s := rfl

theorem exec_bge (rs1 rs2 : Reg) (imm : BitVec 13) (s : State) :
    exec (.bge rs1 rs2 imm) s = branch (!lessSigned (s.x rs1) (s.x rs2)) imm s := rfl

theorem exec_bltu (rs1 rs2 : Reg) (imm : BitVec 13) (s : State) :
    exec (.bltu rs1 rs2 imm) s = branch (lessUnsigned (s.x rs1) (s.x rs2)) imm s := rfl

theorem exec_bgeu (rs1 rs2 : Reg) (imm : BitVec 13) (s : State) :
    exec (.bgeu rs1 rs2 imm) s = branch (!lessUnsigned (s.x rs1) (s.x rs2)) imm s := rfl

/-! ## The rules that jumps (R141, R143) and branches (R146) share -/

/-- An instruction whose meaning is a transfer that links jumps, or traps on a misaligned target. -/
theorem exec_jumps {i : Instr} {s : State} {rd : Reg} {t : Word}
    (h : exec i s = transfer t (s.setX rd s.nextPc) s) :
    (t.toNat % 4 = 0 → ∃ u, exec i s = .next u ∧ Claims.JumpsTo rd t s u) ∧
    (t.toNat % 4 ≠ 0 →
      ∃ u, exec i s = .next u ∧ TrapTaken .instructionAddressMisaligned t s u) := by
  rw [h]
  exact ⟨fun haligned => ⟨_, transfer_of_aligned haligned _ s, jumpsTo_setX_setPc rd t s⟩,
    fun hmisaligned => transfer_of_misaligned hmisaligned _ s⟩

/-- The rule of R146 for a row of the opcode map whose meaning is a branch on `taken`, where `taken`
computes the condition. -/
theorem branchesWhen_of_row {name : String} {pat : Word} {mk : Reg → Reg → BitVec 13 → Instr}
    {taken : Word → Word → Bool} {cond : Word → Word → Prop}
    (hrow : rowB name pat mk ∈ rows) (hpat : pat ≠ 0x0000000F#32)
    (hexec : ∀ rs1 rs2 imm s, exec (mk rs1 rs2 imm) s = branch (taken (s.x rs1) (s.x rs2)) imm s)
    (hcond : ∀ a b, taken a b = true ↔ cond a b) : Claims.BranchesWhen pat mk cond := by
  refine ⟨namesWords_of_mem hrow hpat, fun rs1 rs2 imm s => ?_⟩
  simp only [hexec, ← hcond, ← branchTarget_eq_ofInt]
  obtain ⟨hnot, hbranch⟩ | ⟨htaken, hbranch⟩ := branch_cases (taken (s.x rs1) (s.x rs2)) imm s
  · rw [hbranch, hnot]
    exact ⟨nofun, nofun, fun _ => ⟨_, advance_eq s, continues_advance s⟩⟩
  · rw [hbranch, htaken]
    exact ⟨fun _ haligned => ⟨_, transfer_of_aligned haligned s s, continues_setPc _ s⟩,
      fun _ hmisaligned => transfer_of_misaligned hmisaligned s s, fun hnot => absurd rfl hnot⟩

end Sys2Proof.Machine

/-! The statements on JAL (R141) and the six branches (R147 to R152): each instruction's row names
its words, and the rule of the jumps, or of the branches, says the rest. -/

namespace Sys2Proof.Proofs

open Sys2Proof.Machine

/-- Settles O41: JAL is a linking transfer, whose target is the sum of signed values modulo 2^32. -/
theorem jalJumpsAndLinks : Obligations.JalJumpsAndLinks := by
  refine ⟨?_, fun rd imm s => ?_⟩
  · exact namesWords_of_mem
      (r := ⟨"JAL", 0x0000007F#32, 0x0000006F#32, fun w => .jal (rdField w) (immJField w)⟩)
      (by simp [rows, rowsUpperAndJump]) (by decide)
  · rw [← jalTarget_eq_ofInt]
    exact exec_jumps (exec_jal rd imm s)

/-- Settles O44: the branch's Boolean test of equality decides equality of all 32 bits. -/
theorem equalityBranches : Obligations.EqualityBranches :=
  ⟨branchesWhen_of_row (name := "BEQ") (by simp [rows, rowsBranch]) (by decide) exec_beq
      fun _ _ => beq_iff_eq,
    branchesWhen_of_row (name := "BNE") (by simp [rows, rowsBranch]) (by decide) exec_bne
      fun _ _ => bne_iff_ne⟩

/-- Settles O45: BGE tests the negation of BLT's condition, so equal operands fall to BGE. -/
theorem signedBranches : Obligations.SignedBranches :=
  ⟨branchesWhen_of_row (name := "BLT") (by simp [rows, rowsBranch]) (by decide) exec_blt
      lessSigned_iff,
    branchesWhen_of_row (name := "BGE") (by simp [rows, rowsBranch]) (by decide) exec_bge
      not_lessSigned_iff⟩

/-- Settles O46: as O45, with the unsigned comparison. -/
theorem unsignedBranches : Obligations.UnsignedBranches :=
  ⟨branchesWhen_of_row (name := "BLTU") (by simp [rows, rowsBranch]) (by decide) exec_bltu
      lessUnsigned_iff,
    branchesWhen_of_row (name := "BGEU") (by simp [rows, rowsBranch]) (by decide) exec_bgeu
      not_lessUnsigned_iff⟩

end Sys2Proof.Proofs

/-! SUPPORT. What all integer computational instructions share: the meaning of each is a register write. -/

namespace Sys2Proof.Machine

/-- An integer computational instruction writes its destination and advances (R100); it neither accesses
memory nor traps. -/
theorem exec_eq_writeReg : ∀ {i : Instr} {rd : Reg} (s : State), computationalDest i = some rd →
    ∃ v, exec i s = writeReg rd v s
  | .lui rd imm, _, s, rfl => ⟨_, exec_lui rd imm s⟩
  | .auipc rd imm, _, s, rfl => ⟨_, exec_auipc rd imm s⟩
  | .addi rd rs1 imm, _, s, rfl => ⟨_, exec_addi rd rs1 imm s⟩
  | .slti rd rs1 imm, _, s, rfl => ⟨_, exec_slti rd rs1 imm s⟩
  | .sltiu rd rs1 imm, _, s, rfl => ⟨_, exec_sltiu rd rs1 imm s⟩
  | .xori rd rs1 imm, _, s, rfl => ⟨_, exec_xori rd rs1 imm s⟩
  | .ori rd rs1 imm, _, s, rfl => ⟨_, exec_ori rd rs1 imm s⟩
  | .andi rd rs1 imm, _, s, rfl => ⟨_, exec_andi rd rs1 imm s⟩
  | .slli rd rs1 shamt, _, s, rfl => ⟨_, exec_slli rd rs1 shamt s⟩
  | .srli rd rs1 shamt, _, s, rfl => ⟨_, exec_srli rd rs1 shamt s⟩
  | .srai rd rs1 shamt, _, s, rfl => ⟨_, exec_srai rd rs1 shamt s⟩
  | .add rd rs1 rs2, _, s, rfl => ⟨_, exec_add rd rs1 rs2 s⟩
  | .sub rd rs1 rs2, _, s, rfl => ⟨_, exec_sub rd rs1 rs2 s⟩
  | .sll rd rs1 rs2, _, s, rfl => ⟨_, exec_sll rd rs1 rs2 s⟩
  | .slt rd rs1 rs2, _, s, rfl => ⟨_, exec_slt rd rs1 rs2 s⟩
  | .sltu rd rs1 rs2, _, s, rfl => ⟨_, exec_sltu rd rs1 rs2 s⟩
  | .xor rd rs1 rs2, _, s, rfl => ⟨_, exec_xor rd rs1 rs2 s⟩
  | .srl rd rs1 rs2, _, s, rfl => ⟨_, exec_srl rd rs1 rs2 s⟩
  | .sra rd rs1 rs2, _, s, rfl => ⟨_, exec_sra rd rs1 rs2 s⟩
  | .or rd rs1 rs2, _, s, rfl => ⟨_, exec_or rd rs1 rs2 s⟩
  | .and rd rs1 rs2, _, s, rfl => ⟨_, exec_and rd rs1 rs2 s⟩

/-- With `x0` as its destination the write is discarded (R21), and only the advance is left. -/
theorem exec_eq_advance_of_dest_zero {i : Instr} (s : State) (h : computationalDest i = some 0#5) :
    exec i s = advance s := by
  obtain ⟨v, hexec⟩ := exec_eq_writeReg s h
  rw [hexec, writeReg, setX_zero]

end Sys2Proof.Machine

/-! The statement on HINTs (R200). -/

namespace Sys2Proof.Proofs

open Sys2Proof.Machine

/-- Settles O29: the one register write of a computational instruction goes to `x0`. -/
theorem hintsOnlyAdvancePc : Obligations.HintsOnlyAdvancePc := fun _ s h =>
  ⟨_, (exec_eq_advance_of_dest_zero s h).trans (advance_eq s), continues_advance s⟩

end Sys2Proof.Proofs

/-! SUPPORT. Words and their fields (R74 to R82, R95): a word is what the encoding function of its format
builds from its fields, and a row's mask and pattern are conditions on the fields opcode, funct3 and
`inst[31:25]`. -/

namespace Sys2Proof

/-! ## A word from its fields -/

theorem encI_fields (w : Word) :
    encI (immIField w) (rs1Field w) (w.extractLsb' 12 3) (rdField w) (w.extractLsb' 0 7) = w := by
  refine BitVec.eq_of_getLsbD_eq fun i hi => ?_
  simp only [encI, immIField, rs1Field, rdField, BitVec.getLsbD_append, BitVec.getLsbD_extractLsb']
  grind only

theorem encR_fields (w : Word) :
    encR (w.extractLsb' 25 7) (rs2Field w) (rs1Field w) (w.extractLsb' 12 3) (rdField w)
      (w.extractLsb' 0 7) = w := by
  refine BitVec.eq_of_getLsbD_eq fun i hi => ?_
  simp only [encR, rs2Field, rs1Field, rdField, BitVec.getLsbD_append, BitVec.getLsbD_extractLsb']
  grind only

theorem encS_fields (w : Word) :
    encS (immSField w) (rs2Field w) (rs1Field w) (w.extractLsb' 12 3) (w.extractLsb' 0 7) = w := by
  refine BitVec.eq_of_getLsbD_eq fun i hi => ?_
  simp only [encS, immSField, rs2Field, rs1Field, BitVec.getLsbD_append, BitVec.getLsbD_extractLsb']
  grind only

theorem encB_fields (w : Word) :
    encB (immBField w) (rs2Field w) (rs1Field w) (w.extractLsb' 12 3) (w.extractLsb' 0 7) = w := by
  refine BitVec.eq_of_getLsbD_eq fun i hi => ?_
  simp only [encB, immBField, rs2Field, rs1Field, BitVec.getLsbD_append, BitVec.getLsbD_extractLsb']
  grind only

theorem encU_fields (w : Word) : encU (immUField w) (rdField w) (w.extractLsb' 0 7) = w := by
  refine BitVec.eq_of_getLsbD_eq fun i hi => ?_
  simp only [encU, immUField, rdField, BitVec.getLsbD_append, BitVec.getLsbD_extractLsb']
  grind only

theorem encJ_fields (w : Word) : encJ (immJField w) (rdField w) (w.extractLsb' 0 7) = w := by
  refine BitVec.eq_of_getLsbD_eq fun i hi => ?_
  simp only [encJ, immJField, rdField, BitVec.getLsbD_append, BitVec.getLsbD_extractLsb']
  grind only

/-- The three four-bit fields of FENCE are the pieces of its I-immediate (R85). -/
theorem fenceFields_append (w : Word) :
    w.extractLsb' 28 4 ++ w.extractLsb' 24 4 ++ w.extractLsb' 20 4 = immIField w := by
  refine BitVec.eq_of_getLsbD_eq fun i hi => ?_
  simp only [immIField, BitVec.getLsbD_append, BitVec.getLsbD_extractLsb']
  grind only

@[simp] theorem immBField_even (w : Word) : (immBField w).getLsbD 0 = false := by
  simp only [immBField, BitVec.getLsbD_append]
  rfl

@[simp] theorem immJField_even (w : Word) : (immJField w).getLsbD 0 = false := by
  simp only [immJField, BitVec.getLsbD_append]
  rfl

/-! ## Masks as fields -/

theorem and_opcode_mask (w : Word) : w &&& 0x0000007F#32 = 0#25 ++ w.extractLsb' 0 7 := by
  refine BitVec.eq_of_getLsbD_eq fun i hi => ?_
  simp only [BitVec.getLsbD_append, BitVec.getLsbD_and, BitVec.getLsbD_extractLsb']
  interval_cases i <;> simp

theorem and_funct3_mask (w : Word) :
    w &&& 0x0000707F#32 = 0#17 ++ w.extractLsb' 12 3 ++ 0#5 ++ w.extractLsb' 0 7 := by
  refine BitVec.eq_of_getLsbD_eq fun i hi => ?_
  simp only [BitVec.getLsbD_append, BitVec.getLsbD_and, BitVec.getLsbD_extractLsb']
  interval_cases i <;> simp

theorem and_funct7_mask (w : Word) :
    w &&& 0xFE00707F#32 =
      w.extractLsb' 25 7 ++ 0#10 ++ w.extractLsb' 12 3 ++ 0#5 ++ w.extractLsb' 0 7 := by
  refine BitVec.eq_of_getLsbD_eq fun i hi => ?_
  simp only [BitVec.getLsbD_append, BitVec.getLsbD_and, BitVec.getLsbD_extractLsb']
  interval_cases i <;> simp

theorem and_immediate_mask (w : Word) :
    w &&& 0xFFF0707F#32 = immIField w ++ 0#5 ++ w.extractLsb' 12 3 ++ 0#5 ++ w.extractLsb' 0 7 := by
  refine BitVec.eq_of_getLsbD_eq fun i hi => ?_
  simp only [immIField, BitVec.getLsbD_append, BitVec.getLsbD_and, BitVec.getLsbD_extractLsb']
  interval_cases i <;> simp

/-- A pattern under the opcode mask fixes the opcode. -/
theorem and_opcode_eq_iff {w p : Word} (hp : p &&& 0x0000007F#32 = p) :
    w &&& 0x0000007F#32 = p ↔ w.extractLsb' 0 7 = p.extractLsb' 0 7 := by
  refine ⟨fun h => extractLsb'_of_and_eq h (by decide), fun h => ?_⟩
  rw [← hp, and_opcode_mask w, and_opcode_mask p, h]

/-- A pattern under the mask of opcode and funct3 fixes these two. -/
theorem and_funct3_eq_iff {w p : Word} (hp : p &&& 0x0000707F#32 = p) :
    w &&& 0x0000707F#32 = p ↔
      w.extractLsb' 0 7 = p.extractLsb' 0 7 ∧ w.extractLsb' 12 3 = p.extractLsb' 12 3 := by
  refine ⟨fun h => ⟨extractLsb'_of_and_eq h (by decide), extractLsb'_of_and_eq h (by decide)⟩,
    fun ⟨hop, hf3⟩ => ?_⟩
  rw [← hp, and_funct3_mask w, and_funct3_mask p, hop, hf3]

/-- A pattern under the mask of opcode, funct3 and `inst[31:25]` fixes these three. -/
theorem and_funct7_eq_iff {w p : Word} (hp : p &&& 0xFE00707F#32 = p) :
    w &&& 0xFE00707F#32 = p ↔ w.extractLsb' 0 7 = p.extractLsb' 0 7 ∧
      w.extractLsb' 12 3 = p.extractLsb' 12 3 ∧ w.extractLsb' 25 7 = p.extractLsb' 25 7 := by
  refine ⟨fun h => ⟨extractLsb'_of_and_eq h (by decide), extractLsb'_of_and_eq h (by decide),
    extractLsb'_of_and_eq h (by decide)⟩, fun ⟨hop, hf3, hf7⟩ => ?_⟩
  rw [← hp, and_funct7_mask w, and_funct7_mask p, hop, hf3, hf7]

/-- No row's pattern has a bit outside its mask. -/
theorem rows_pat_and_mask : ∀ r ∈ rowFenceTso :: rows, r.pat &&& r.mask = r.pat := by decide

end Sys2Proof

/-! SUPPORT. The opcode map in both directions (R84 to R88): what a word that decodes was selected by, and
each row's words as the encodings of the row's instructions. -/

namespace Sys2Proof

/-! ## The search of R87 -/

/-- A word that a row selects has the length bits of a 32-bit instruction (R87 steps 1 and 2). -/
theorem lengthBits_of_hits {w : Word} {r : Row} (hr : r ∈ rowFenceTso :: rows) (hw : r.hits w = true) :
    w.extractLsb' 0 2 = 0b11#2 ∧ w.extractLsb' 2 3 ≠ 0b111#3 := by
  have hbits : ∀ r ∈ rowFenceTso :: rows,
      (r.mask.extractLsb' 0 2 = BitVec.allOnes 2 ∧ r.pat.extractLsb' 0 2 = 0b11#2) ∧
      (r.mask.extractLsb' 2 3 = BitVec.allOnes 3 ∧ r.pat.extractLsb' 2 3 ≠ 0b111#3) :=
    List.forall_mem_cons.mpr ⟨by decide, rows_lengthBits⟩
  obtain ⟨⟨hmask0, hpat0⟩, hmask2, hpat2⟩ := hbits r hr
  have hand : w &&& r.mask = r.pat := (r.hits_iff w).mp hw
  exact ⟨(extractLsb'_of_and_eq hand hmask0).trans hpat0, extractLsb'_of_and_eq hand hmask2 ▸ hpat2⟩

/-- The instruction is the one that the first row found builds. -/
theorem decode_of_find? {w : Word} {r : Row}
    (h : (rowFenceTso :: rows).find? (fun q => q.hits w) = some r) : decode w = .ok (r.build w) := by
  have hw : r.hits w = true := List.find?_some (p := fun q : Row => q.hits w) h
  obtain ⟨hshort, hlong⟩ := lengthBits_of_hits (List.mem_of_find?_eq_some h) hw
  simp only [decode, hshort, hlong, ne_eq, not_true_eq_false, if_false, h]

/-- A word that FENCE.TSO's row selects decodes to FENCE.TSO (R87 step 3). -/
theorem decode_of_tso_hits {w : Word} (hw : rowFenceTso.hits w = true) :
    decode w = .ok (.fenceTso (rs1Field w) (rdField w)) :=
  decode_of_find? (List.find?_cons_of_pos (p := fun q : Row => q.hits w) hw)

/-- A word that FENCE.TSO's row does not select decodes by the row of R84 that selects it. -/
theorem decode_of_hits_of_not_tso {w : Word} {r : Row} (hr : r ∈ rows)
    (htso : ¬ rowFenceTso.hits w = true) (hw : r.hits w = true) : decode w = .ok (r.build w) := by
  refine decode_of_find? ?_
  rw [List.find?_cons_of_neg (p := fun q : Row => q.hits w) htso]
  cases hfind : rows.find? (fun q => q.hits w) with
  | none => exact absurd hw (List.find?_eq_none.mp hfind r hr)
  | some q =>
    have hqw : q.hits w = true := List.find?_some (p := fun q : Row => q.hits w) hfind
    rw [row_eq_of_hits (List.mem_of_find?_eq_some hfind) hr hqw hw]

/-- What a word that decodes was selected by: FENCE.TSO's row, or else a row of R84. -/
theorem decode_ok_cases {w : Word} {i : Instr} (h : decode w = .ok i) :
    (rowFenceTso.hits w = true ∧ i = .fenceTso (rs1Field w) (rdField w)) ∨
    (¬ rowFenceTso.hits w = true ∧ ∃ r ∈ rows, r.hits w = true ∧ i = r.build w) := by
  by_cases htso : rowFenceTso.hits w = true
  · rw [decode_of_tso_hits htso] at h
    exact .inl ⟨htso, (Except.ok.inj h).symm⟩
  · refine .inr ⟨htso, ?_⟩
    by_contra hnone
    have hmiss : ∀ r ∈ rows, ¬ r.hits w = true := fun r hr hw => hnone
      ⟨r, hr, hw, Except.ok.inj (h.symm.trans (decode_of_hits_of_not_tso hr htso hw))⟩
    obtain ⟨e, he⟩ := decode_error_of_not_hits (List.forall_mem_cons.mpr ⟨htso, hmiss⟩)
    rw [he] at h
    cases h

/-- FENCE's row (R85). -/
def rowFence : Row :=
  ⟨"FENCE", 0x0000707F#32, 0x0000000F#32, fun w =>
    .fence (w.extractLsb' 28 4) (w.extractLsb' 24 4) (w.extractLsb' 20 4) (rs1Field w) (rdField w)⟩

theorem rowFence_mem : rowFence ∈ rows := by simp [rows, rowsFenceAndSystem, rowFence]

/-- The words of FENCE.TSO are words of FENCE (R182). -/
theorem rowFence_hits_of_tso {w : Word} (h : rowFenceTso.hits w = true) : rowFence.hits w = true := by
  have hand : w &&& 0xFFF0707F#32 = 0x8330000F#32 := (rowFenceTso.hits_iff w).mp h
  have hop : w.extractLsb' 0 7 = 0x0F#7 := extractLsb'_of_and_eq hand (by decide)
  have hf3 : w.extractLsb' 12 3 = 0#3 := extractLsb'_of_and_eq hand (by decide)
  exact (rowFence.hits_iff w).mpr ((and_funct3_eq_iff (by decide)).mpr ⟨hop, hf3⟩)

/-- A word is an instruction exactly when a row of R84 selects it (R87). -/
theorem decodes_iff (w : Word) : (∃ i, decode w = .ok i) ↔ ∃ r ∈ rows, r.hits w = true := by
  constructor
  · rintro ⟨i, hi⟩
    obtain ⟨htso, -⟩ | ⟨-, r, hr, hw, -⟩ := decode_ok_cases hi
    · exact ⟨rowFence, rowFence_mem, rowFence_hits_of_tso htso⟩
    · exact ⟨r, hr, hw⟩
  · rintro ⟨r, hr, hw⟩
    by_cases htso : rowFenceTso.hits w = true
    · exact ⟨_, decode_of_tso_hits htso⟩
    · exact ⟨_, decode_of_hits_of_not_tso hr htso hw⟩

/-! ## FENCE and FENCE.TSO (R85, R182) -/

/-- A FENCE word is FENCE.TSO's exactly when its fields are. -/
theorem tso_hits_iff {w : Word} (h : rowFence.hits w = true) :
    rowFenceTso.hits w = true ↔
      isTsoPattern (w.extractLsb' 28 4) (w.extractLsb' 24 4) (w.extractLsb' 20 4) = true := by
  simp only [Row.hits_iff, isTsoPattern, Bool.and_eq_true, beq_iff_eq]
  constructor
  · intro hand
    exact ⟨⟨extractLsb'_of_and_eq hand (by decide), extractLsb'_of_and_eq hand (by decide)⟩,
      extractLsb'_of_and_eq hand (by decide)⟩
  · rintro ⟨⟨hfm, hpred⟩, hsucc⟩
    obtain ⟨hop, hf3⟩ := (and_funct3_eq_iff (p := 0x0000000F#32) (by decide)).mp
      ((rowFence.hits_iff w).mp h)
    exact (and_immediate_mask w).trans (by rw [← fenceFields_append, hfm, hpred, hsucc, hop, hf3]; rfl)

/-! ## Each format's rows: an encoded word decodes (R95) -/

theorem decode_encI (name : String) (pat : Word) (mk : Reg → Reg → BitVec 12 → Instr)
    (rd rs1 : Reg) (imm : BitVec 12)
    (hrow : rowI name pat mk ∈ rows := by simp [rows, rowsUpperAndJump, rowsMemory, rowsOpImm])
    (hpat : pat ≠ 0x0000000F#32 := by decide) :
    decode (encI imm rs1 (pat.extractLsb' 12 3) rd (pat.extractLsb' 0 7)) = .ok (mk rd rs1 imm) := by
  have hmask : pat &&& 0x0000707F#32 = pat := rows_pat_and_mask _ (List.mem_cons_of_mem _ hrow)
  refine (namesWords_of_mem hrow hpat _ ((and_funct3_eq_iff hmask).mpr
    ⟨encI_opcode .., encI_funct3 ..⟩)).trans ?_
  simp [rowI]

theorem decode_encS (name : String) (pat : Word) (mk : Reg → Reg → BitVec 12 → Instr)
    (rs2 rs1 : Reg) (imm : BitVec 12)
    (hrow : rowS name pat mk ∈ rows := by simp [rows, rowsMemory])
    (hpat : pat ≠ 0x0000000F#32 := by decide) :
    decode (encS imm rs2 rs1 (pat.extractLsb' 12 3) (pat.extractLsb' 0 7)) = .ok (mk rs2 rs1 imm) := by
  have hmask : pat &&& 0x0000707F#32 = pat := rows_pat_and_mask _ (List.mem_cons_of_mem _ hrow)
  refine (namesWords_of_mem hrow hpat _ ((and_funct3_eq_iff hmask).mpr
    ⟨encS_opcode .., encS_funct3 ..⟩)).trans ?_
  simp [rowS]

theorem decode_encB (name : String) (pat : Word) (mk : Reg → Reg → BitVec 13 → Instr)
    (rs1 rs2 : Reg) {imm : BitVec 13} (heven : (!imm.getLsbD 0) = true)
    (hrow : rowB name pat mk ∈ rows := by simp [rows, rowsBranch])
    (hpat : pat ≠ 0x0000000F#32 := by decide) :
    decode (encB imm rs2 rs1 (pat.extractLsb' 12 3) (pat.extractLsb' 0 7)) = .ok (mk rs1 rs2 imm) := by
  have hmask : pat &&& 0x0000707F#32 = pat := rows_pat_and_mask _ (List.mem_cons_of_mem _ hrow)
  refine (namesWords_of_mem hrow hpat _ ((and_funct3_eq_iff hmask).mpr
    ⟨encB_opcode .., encB_funct3 ..⟩)).trans ?_
  simp [rowB, immBField_encB, even_immediate imm (Bool.not_eq_true' _ ▸ heven)]

theorem decode_encR (name : String) (pat : Word) (mk : Reg → Reg → Reg → Instr)
    (rd rs1 rs2 : Reg)
    (hrow : rowR name pat mk ∈ rows := by simp [rows, rowsOp])
    (hpat : pat ≠ 0x0000000F#32 := by decide) :
    decode (encR (pat.extractLsb' 25 7) rs2 rs1 (pat.extractLsb' 12 3) rd (pat.extractLsb' 0 7))
      = .ok (mk rd rs1 rs2) := by
  have hmask : pat &&& 0xFE00707F#32 = pat := rows_pat_and_mask _ (List.mem_cons_of_mem _ hrow)
  refine (namesWords_of_mem hrow hpat _ ((and_funct7_eq_iff hmask).mpr
    ⟨encR_opcode .., encR_funct3 .., encR_funct7 ..⟩)).trans ?_
  simp [rowR]

/-- The shift amount stands where an R-type word has `rs2` (R82). -/
theorem decode_encShift (name : String) (pat : Word) (mk : Reg → Reg → BitVec 5 → Instr)
    (rd rs1 : Reg) (shamt : BitVec 5)
    (hrow : rowShift name pat mk ∈ rows := by simp [rows, rowsOpImm])
    (hpat : pat ≠ 0x0000000F#32 := by decide) :
    decode (encR (pat.extractLsb' 25 7) shamt rs1 (pat.extractLsb' 12 3) rd (pat.extractLsb' 0 7))
      = .ok (mk rd rs1 shamt) :=
  decode_encR name pat mk rd rs1 shamt hrow hpat

theorem decode_encU (name : String) (pat : Word) (mk : Reg → BitVec 20 → Instr)
    (rd : Reg) (imm : BitVec 20)
    (hrow : ⟨name, 0x0000007F#32, pat, fun w => mk (rdField w) (immUField w)⟩ ∈ rows := by
      simp [rows, rowsUpperAndJump])
    (hpat : pat ≠ 0x0000000F#32 := by decide) :
    decode (encU imm rd (pat.extractLsb' 0 7)) = .ok (mk rd imm) := by
  have hmask : pat &&& 0x0000007F#32 = pat := rows_pat_and_mask _ (List.mem_cons_of_mem _ hrow)
  refine (namesWords_of_mem hrow hpat _ ((and_opcode_eq_iff hmask).mpr (encU_opcode ..))).trans ?_
  simp

theorem decode_encode_jal (rd : Reg) {imm : BitVec 21} (heven : (!imm.getLsbD 0) = true) :
    decode (encode (.jal rd imm)) = .ok (.jal rd imm) := by
  have hand : encode (.jal rd imm) &&& 0x0000007F#32 = 0x0000006F#32 :=
    (and_opcode_eq_iff (by decide)).mpr (encJ_opcode ..)
  rw [namesWords_of_mem
    (r := ⟨"JAL", 0x0000007F#32, 0x0000006F#32, fun w => .jal (rdField w) (immJField w)⟩)
    (by simp [rows, rowsUpperAndJump]) (by decide) _ hand]
  simp [encode, immJField_encJ, even_immediate imm (Bool.not_eq_true' _ ▸ heven)]

theorem decode_encode_fenceTso (rs1 rd : Reg) :
    decode (encode (.fenceTso rs1 rd)) = .ok (.fenceTso rs1 rd) := by
  rw [decode_of_tso_hits ((Row.hits_iff _ _).mpr ?_)]
  · simp [encode]
  · simp only [rowFenceTso, and_immediate_mask, encode, immIField_encI, encI_funct3, encI_opcode]
    rfl

theorem decode_encode_fence {fm pred succ : BitVec 4} (rs1 rd : Reg)
    (hplain : (!isTsoPattern fm pred succ) = true) :
    decode (encode (.fence fm pred succ rs1 rd)) = .ok (.fence fm pred succ rs1 rd) := by
  have hw : rowFence.hits (encode (.fence fm pred succ rs1 rd)) = true := (Row.hits_iff _ _).mpr
    ((and_funct3_eq_iff (p := 0x0000000F#32) (by decide)).mpr ⟨encI_opcode .., encI_funct3 ..⟩)
  have hfm : (encode (.fence fm pred succ rs1 rd)).extractLsb' 28 4 = fm := by grind [encode, encI]
  have hpred : (encode (.fence fm pred succ rs1 rd)).extractLsb' 24 4 = pred := by grind [encode, encI]
  have hsucc : (encode (.fence fm pred succ rs1 rd)).extractLsb' 20 4 = succ := by grind [encode, encI]
  rw [decode_of_hits_of_not_tso rowFence_mem ?_ hw]
  · simp only [rowFence, hfm, hpred, hsucc]
    simp [encode]
  · rw [tso_hits_iff hw, hfm, hpred, hsucc]
    simpa using hplain

/-- The word of a well-formed instruction decodes to it: by its row for every instruction, the even
offset and the plain FENCE being what well-formedness says. -/
theorem decode_encode : ∀ {i : Instr}, WellFormed i = true → decode (encode i) = .ok i
  | .lui rd imm, _ => decode_encU "LUI" 0x00000037#32 .lui rd imm
  | .auipc rd imm, _ => decode_encU "AUIPC" 0x00000017#32 .auipc rd imm
  | .jal rd _, heven => decode_encode_jal rd heven
  | .jalr rd rs1 imm, _ => decode_encI "JALR" 0x00000067#32 .jalr rd rs1 imm
  | .beq rs1 rs2 _, heven => decode_encB "BEQ" 0x00000063#32 .beq rs1 rs2 heven
  | .bne rs1 rs2 _, heven => decode_encB "BNE" 0x00001063#32 .bne rs1 rs2 heven
  | .blt rs1 rs2 _, heven => decode_encB "BLT" 0x00004063#32 .blt rs1 rs2 heven
  | .bge rs1 rs2 _, heven => decode_encB "BGE" 0x00005063#32 .bge rs1 rs2 heven
  | .bltu rs1 rs2 _, heven => decode_encB "BLTU" 0x00006063#32 .bltu rs1 rs2 heven
  | .bgeu rs1 rs2 _, heven => decode_encB "BGEU" 0x00007063#32 .bgeu rs1 rs2 heven
  | .lb rd rs1 imm, _ => decode_encI "LB" 0x00000003#32 .lb rd rs1 imm
  | .lh rd rs1 imm, _ => decode_encI "LH" 0x00001003#32 .lh rd rs1 imm
  | .lw rd rs1 imm, _ => decode_encI "LW" 0x00002003#32 .lw rd rs1 imm
  | .lbu rd rs1 imm, _ => decode_encI "LBU" 0x00004003#32 .lbu rd rs1 imm
  | .lhu rd rs1 imm, _ => decode_encI "LHU" 0x00005003#32 .lhu rd rs1 imm
  | .sb rs2 rs1 imm, _ => decode_encS "SB" 0x00000023#32 .sb rs2 rs1 imm
  | .sh rs2 rs1 imm, _ => decode_encS "SH" 0x00001023#32 .sh rs2 rs1 imm
  | .sw rs2 rs1 imm, _ => decode_encS "SW" 0x00002023#32 .sw rs2 rs1 imm
  | .addi rd rs1 imm, _ => decode_encI "ADDI" 0x00000013#32 .addi rd rs1 imm
  | .slti rd rs1 imm, _ => decode_encI "SLTI" 0x00002013#32 .slti rd rs1 imm
  | .sltiu rd rs1 imm, _ => decode_encI "SLTIU" 0x00003013#32 .sltiu rd rs1 imm
  | .xori rd rs1 imm, _ => decode_encI "XORI" 0x00004013#32 .xori rd rs1 imm
  | .ori rd rs1 imm, _ => decode_encI "ORI" 0x00006013#32 .ori rd rs1 imm
  | .andi rd rs1 imm, _ => decode_encI "ANDI" 0x00007013#32 .andi rd rs1 imm
  | .slli rd rs1 shamt, _ => decode_encShift "SLLI" 0x00001013#32 .slli rd rs1 shamt
  | .srli rd rs1 shamt, _ => decode_encShift "SRLI" 0x00005013#32 .srli rd rs1 shamt
  | .srai rd rs1 shamt, _ => decode_encShift "SRAI" 0x40005013#32 .srai rd rs1 shamt
  | .add rd rs1 rs2, _ => decode_encR "ADD" 0x00000033#32 .add rd rs1 rs2
  | .sub rd rs1 rs2, _ => decode_encR "SUB" 0x40000033#32 .sub rd rs1 rs2
  | .sll rd rs1 rs2, _ => decode_encR "SLL" 0x00001033#32 .sll rd rs1 rs2
  | .slt rd rs1 rs2, _ => decode_encR "SLT" 0x00002033#32 .slt rd rs1 rs2
  | .sltu rd rs1 rs2, _ => decode_encR "SLTU" 0x00003033#32 .sltu rd rs1 rs2
  | .xor rd rs1 rs2, _ => decode_encR "XOR" 0x00004033#32 .xor rd rs1 rs2
  | .srl rd rs1 rs2, _ => decode_encR "SRL" 0x00005033#32 .srl rd rs1 rs2
  | .sra rd rs1 rs2, _ => decode_encR "SRA" 0x40005033#32 .sra rd rs1 rs2
  | .or rd rs1 rs2, _ => decode_encR "OR" 0x00006033#32 .or rd rs1 rs2
  | .and rd rs1 rs2, _ => decode_encR "AND" 0x00007033#32 .and rd rs1 rs2
  | .fenceTso rs1 rd, _ => decode_encode_fenceTso rs1 rd
  | .fence _ _ _ rs1 rd, hplain => decode_encode_fence rs1 rd hplain
  | .ecall, _ => by decide
  | .ebreak, _ => by decide

end Sys2Proof

/-! SUPPORT. Each format's rows, the other way: a word that a row selects is the encoding of the row's
instruction, which is well formed. -/

namespace Sys2Proof

/-- The row's instruction is well formed and its word is the word the row selected. -/
def Row.Exact (r : Row) : Prop :=
  ∀ w, r.hits w = true → WellFormed (r.build w) = true ∧ encode (r.build w) = w

section
variable {name : String} {pat : Word}

theorem rowI_exact {mk : Reg → Reg → BitVec 12 → Instr}
    (hmask : pat &&& 0x0000707F#32 = pat := by decide)
    (hwf : ∀ rd rs1 imm, WellFormed (mk rd rs1 imm) = true := by exact fun _ _ _ => rfl)
    (henc : ∀ rd rs1 imm, encode (mk rd rs1 imm)
      = encI imm rs1 (pat.extractLsb' 12 3) rd (pat.extractLsb' 0 7) := by exact fun _ _ _ => rfl) :
    (rowI name pat mk).Exact := fun w hw => by
  obtain ⟨hop, hf3⟩ := (and_funct3_eq_iff hmask).mp ((Row.hits_iff _ w).mp hw)
  exact ⟨hwf _ _ _, by rw [rowI, henc, ← hop, ← hf3, encI_fields]⟩

theorem rowS_exact {mk : Reg → Reg → BitVec 12 → Instr}
    (hmask : pat &&& 0x0000707F#32 = pat := by decide)
    (hwf : ∀ rs2 rs1 imm, WellFormed (mk rs2 rs1 imm) = true := by exact fun _ _ _ => rfl)
    (henc : ∀ rs2 rs1 imm, encode (mk rs2 rs1 imm)
      = encS imm rs2 rs1 (pat.extractLsb' 12 3) (pat.extractLsb' 0 7) := by exact fun _ _ _ => rfl) :
    (rowS name pat mk).Exact := fun w hw => by
  obtain ⟨hop, hf3⟩ := (and_funct3_eq_iff hmask).mp ((Row.hits_iff _ w).mp hw)
  exact ⟨hwf _ _ _, by rw [rowS, henc, ← hop, ← hf3, encS_fields]⟩

theorem rowB_exact {mk : Reg → Reg → BitVec 13 → Instr}
    (hmask : pat &&& 0x0000707F#32 = pat := by decide)
    (hwf : ∀ rs1 rs2 imm, WellFormed (mk rs1 rs2 imm) = !imm.getLsbD 0 := by exact fun _ _ _ => rfl)
    (henc : ∀ rs1 rs2 imm, encode (mk rs1 rs2 imm)
      = encB imm rs2 rs1 (pat.extractLsb' 12 3) (pat.extractLsb' 0 7) := by exact fun _ _ _ => rfl) :
    (rowB name pat mk).Exact := fun w hw => by
  obtain ⟨hop, hf3⟩ := (and_funct3_eq_iff hmask).mp ((Row.hits_iff _ w).mp hw)
  exact ⟨by rw [rowB, hwf, immBField_even, Bool.not_false],
    by rw [rowB, henc, ← hop, ← hf3, encB_fields]⟩

theorem rowR_exact {mk : Reg → Reg → Reg → Instr}
    (hmask : pat &&& 0xFE00707F#32 = pat := by decide)
    (hwf : ∀ rd rs1 rs2, WellFormed (mk rd rs1 rs2) = true := by exact fun _ _ _ => rfl)
    (henc : ∀ rd rs1 rs2, encode (mk rd rs1 rs2) = encR (pat.extractLsb' 25 7) rs2 rs1
      (pat.extractLsb' 12 3) rd (pat.extractLsb' 0 7) := by exact fun _ _ _ => rfl) :
    (rowR name pat mk).Exact := fun w hw => by
  obtain ⟨hop, hf3, hf7⟩ := (and_funct7_eq_iff hmask).mp ((Row.hits_iff _ w).mp hw)
  exact ⟨hwf _ _ _, by rw [rowR, henc, ← hop, ← hf3, ← hf7, encR_fields]⟩

/-- The shift amount of R82 stands where an R-type word has `rs2`. -/
theorem rowShift_exact {mk : Reg → Reg → BitVec 5 → Instr}
    (hmask : pat &&& 0xFE00707F#32 = pat := by decide)
    (hwf : ∀ rd rs1 shamt, WellFormed (mk rd rs1 shamt) = true := by exact fun _ _ _ => rfl)
    (henc : ∀ rd rs1 shamt, encode (mk rd rs1 shamt) = encR (pat.extractLsb' 25 7) shamt rs1
      (pat.extractLsb' 12 3) rd (pat.extractLsb' 0 7) := by exact fun _ _ _ => rfl) :
    (rowShift name pat mk).Exact := rowR_exact (name := name) hmask hwf henc

theorem rowU_exact {mk : Reg → BitVec 20 → Instr}
    (hmask : pat &&& 0x0000007F#32 = pat := by decide)
    (hwf : ∀ rd imm, WellFormed (mk rd imm) = true := by exact fun _ _ => rfl)
    (henc : ∀ rd imm, encode (mk rd imm) = encU imm rd (pat.extractLsb' 0 7) := by
      exact fun _ _ => rfl) :
    Row.Exact ⟨name, 0x0000007F#32, pat, fun w => mk (rdField w) (immUField w)⟩ := fun w hw => by
  have hop := (and_opcode_eq_iff hmask).mp ((Row.hits_iff _ w).mp hw)
  exact ⟨hwf _ _, by rw [henc, ← hop, encU_fields]⟩

end

theorem rowJal_exact :
    Row.Exact ⟨"JAL", 0x0000007F#32, 0x0000006F#32, fun w => .jal (rdField w) (immJField w)⟩ := by
  intro w hw
  have hop : w.extractLsb' 0 7 = 0x6F#7 := (and_opcode_eq_iff (by decide)).mp ((Row.hits_iff _ w).mp hw)
  exact ⟨by rw [WellFormed, immJField_even, Bool.not_false], by rw [encode, ← hop, encJ_fields]⟩

theorem rowFenceTso_exact : rowFenceTso.Exact := by
  intro w hw
  have hand : w &&& 0xFFF0707F#32 = 0x8330000F#32 := (rowFenceTso.hits_iff w).mp hw
  have hop : w.extractLsb' 0 7 = 0x0F#7 := extractLsb'_of_and_eq hand (by decide)
  have hf3 : w.extractLsb' 12 3 = 0#3 := extractLsb'_of_and_eq hand (by decide)
  have himm : immIField w = 0x833#12 := extractLsb'_of_and_eq hand (by decide)
  refine ⟨rfl, Eq.trans ?_ (encI_fields w)⟩
  rw [himm, hop, hf3]
  rfl

/-- FENCE's row is exact on the words that are not FENCE.TSO's. -/
theorem rowFence_exact {w : Word} (hw : rowFence.hits w = true) (htso : ¬ rowFenceTso.hits w = true) :
    WellFormed (rowFence.build w) = true ∧ encode (rowFence.build w) = w := by
  obtain ⟨hop, hf3⟩ := (and_funct3_eq_iff (p := 0x0000000F#32) (by decide)).mp
    ((rowFence.hits_iff w).mp hw)
  rw [tso_hits_iff hw] at htso
  refine ⟨by simpa [rowFence, WellFormed] using htso, Eq.trans ?_ (encI_fields w)⟩
  rw [rowFence, encode, fenceFields_append, hop, hf3]
  rfl

/-- A row that tests every bit selects one word. -/
theorem rowSystem_exact {name : String} {pat : Word} {i : Instr} (hwf : WellFormed i = true)
    (henc : encode i = pat) : Row.Exact ⟨name, 0xFFFFFFFF#32, pat, fun _ => i⟩ := by
  intro w hw
  have hand : w &&& BitVec.allOnes 32 = pat := (Row.hits_iff _ w).mp hw
  exact ⟨hwf, henc.trans (hand.symm.trans BitVec.and_allOnes)⟩

/-- Every row of R84 but FENCE's is exact. -/
theorem rows_exact : ∀ r ∈ rows, r.Exact ∨ r = rowFence := by
  have hexact : ∀ r ∈ rowsUpperAndJump ++ rowsBranch ++ rowsMemory ++ rowsOpImm ++ rowsOp, r.Exact := by
    simp only [rowsUpperAndJump, rowsBranch, rowsMemory, rowsOpImm, rowsOp, List.forall_mem_append,
      List.forall_mem_cons, List.not_mem_nil, false_imp_iff, implies_true, and_true]
    exact ⟨⟨⟨⟨⟨rowU_exact, rowU_exact, rowJal_exact, rowI_exact⟩,
      rowB_exact, rowB_exact, rowB_exact, rowB_exact, rowB_exact, rowB_exact⟩,
      rowI_exact, rowI_exact, rowI_exact, rowI_exact, rowI_exact, rowS_exact, rowS_exact, rowS_exact⟩,
      rowI_exact, rowI_exact, rowI_exact, rowI_exact, rowI_exact, rowI_exact,
      rowShift_exact, rowShift_exact, rowShift_exact⟩,
      rowR_exact, rowR_exact, rowR_exact, rowR_exact, rowR_exact, rowR_exact, rowR_exact, rowR_exact,
      rowR_exact, rowR_exact⟩
  refine List.forall_mem_append.mpr ⟨fun r hr => .inl (hexact r hr), ?_⟩
  simp only [rowsFenceAndSystem, List.forall_mem_cons, List.not_mem_nil, false_imp_iff, implies_true,
    and_true]
  exact ⟨.inr rfl, .inl (rowSystem_exact rfl (by decide)), .inl (rowSystem_exact rfl (by decide))⟩

/-- A word that decodes is the word of its well-formed instruction. -/
theorem encode_of_decode {w : Word} {i : Instr} (h : decode w = .ok i) :
    WellFormed i = true ∧ encode i = w := by
  obtain ⟨htso, rfl⟩ | ⟨hplain, r, hr, hw, rfl⟩ := decode_ok_cases h
  · exact rowFenceTso_exact w htso
  · obtain hexact | rfl := rows_exact r hr
    · exact hexact w hw
    · exact rowFence_exact hw hplain

end Sys2Proof

/-! SUPPORT. The opcode map in numbers: which opcode, funct3 and `inst[31:25]` each group of rows
accepts (R83, R84). -/

namespace Sys2Proof

/-- A piece of a word, as a number. -/
theorem toNat_piece (w : Word) (lo len : Nat) :
    (w.extractLsb' lo len).toNat = w.toNat / 2 ^ lo % 2 ^ len := by
  rw [BitVec.extractLsb'_toNat, Nat.shiftRight_eq_div_pow]

theorem toNat_opcode (w : Word) : (w.extractLsb' 0 7).toNat = w.toNat % 2 ^ 7 := by
  rw [toNat_piece, Nat.pow_zero, Nat.div_one]

theorem and_opcode_eq_iff_toNat {w p : Word} (hp : p &&& 0x0000007F#32 = p) :
    w &&& 0x0000007F#32 = p ↔ w.toNat % 2 ^ 7 = p.toNat % 2 ^ 7 := by
  rw [and_opcode_eq_iff hp, BitVec.toNat_eq, toNat_opcode, toNat_opcode]

theorem and_funct3_eq_iff_toNat {w p : Word} (hp : p &&& 0x0000707F#32 = p) :
    w &&& 0x0000707F#32 = p ↔ w.toNat % 2 ^ 7 = p.toNat % 2 ^ 7 ∧
      w.toNat / 2 ^ 12 % 2 ^ 3 = p.toNat / 2 ^ 12 % 2 ^ 3 := by
  simp only [and_funct3_eq_iff hp, BitVec.toNat_eq, toNat_opcode, toNat_piece _ 12]

theorem and_funct7_eq_iff_toNat {w p : Word} (hp : p &&& 0xFE00707F#32 = p) :
    w &&& 0xFE00707F#32 = p ↔ w.toNat % 2 ^ 7 = p.toNat % 2 ^ 7 ∧
      w.toNat / 2 ^ 12 % 2 ^ 3 = p.toNat / 2 ^ 12 % 2 ^ 3 ∧ w.toNat / 2 ^ 25 = p.toNat / 2 ^ 25 := by
  simp only [and_funct7_eq_iff hp, BitVec.toNat_eq, toNat_opcode, toNat_piece _ 12,
    toNat_extractLsb'_funct7]

section
variable (w : Word)

theorem rowsUpperAndJump_hits_iff : (∃ r ∈ rowsUpperAndJump, r.hits w = true) ↔
    w.toNat % 2 ^ 7 = 0x37 ∨ w.toNat % 2 ^ 7 = 0x17 ∨ w.toNat % 2 ^ 7 = 0x6F ∨
      (w.toNat % 2 ^ 7 = 0x67 ∧ w.toNat / 2 ^ 12 % 2 ^ 3 = 0) := by
  simp (disch := decide) only [rowsUpperAndJump, rowI, Row.hits_iff, and_opcode_eq_iff_toNat,
    and_funct3_eq_iff_toNat, List.exists_mem_cons_iff, List.not_mem_nil, false_and, exists_false, or_false,
    BitVec.reduceToNat, Nat.reducePow, Nat.reduceMod, Nat.reduceDiv]

theorem rowsBranch_hits_iff : (∃ r ∈ rowsBranch, r.hits w = true) ↔
    w.toNat % 2 ^ 7 = 0x63 ∧ w.toNat / 2 ^ 12 % 2 ^ 3 ≠ 2 ∧ w.toNat / 2 ^ 12 % 2 ^ 3 ≠ 3 := by
  simp (disch := decide) only [rowsBranch, rowB, Row.hits_iff, and_funct3_eq_iff_toNat,
    List.exists_mem_cons_iff, List.not_mem_nil, false_and, exists_false, or_false,
    BitVec.reduceToNat, Nat.reducePow, Nat.reduceMod, Nat.reduceDiv]
  omega

theorem rowsMemory_hits_iff : (∃ r ∈ rowsMemory, r.hits w = true) ↔
    (w.toNat % 2 ^ 7 = 0x03 ∧ w.toNat / 2 ^ 12 % 2 ^ 3 ≠ 3 ∧ w.toNat / 2 ^ 12 % 2 ^ 3 ≠ 6 ∧
      w.toNat / 2 ^ 12 % 2 ^ 3 ≠ 7) ∨
    (w.toNat % 2 ^ 7 = 0x23 ∧ w.toNat / 2 ^ 12 % 2 ^ 3 < 3) := by
  simp (disch := decide) only [rowsMemory, rowI, rowS, Row.hits_iff, and_funct3_eq_iff_toNat,
    List.exists_mem_cons_iff, List.not_mem_nil, false_and, exists_false, or_false,
    BitVec.reduceToNat, Nat.reducePow, Nat.reduceMod, Nat.reduceDiv]
  omega

theorem rowsOpImm_hits_iff : (∃ r ∈ rowsOpImm, r.hits w = true) ↔
    w.toNat % 2 ^ 7 = 0x13 ∧ (w.toNat / 2 ^ 12 % 2 ^ 3 = 1 → w.toNat / 2 ^ 25 = 0) ∧
      (w.toNat / 2 ^ 12 % 2 ^ 3 = 5 → w.toNat / 2 ^ 25 = 0 ∨ w.toNat / 2 ^ 25 = 0x20) := by
  simp (disch := decide) only [rowsOpImm, rowI, rowShift, Row.hits_iff,
    and_funct3_eq_iff_toNat, and_funct7_eq_iff_toNat,
    List.exists_mem_cons_iff, List.not_mem_nil, false_and, exists_false, or_false,
    BitVec.reduceToNat, Nat.reducePow, Nat.reduceMod, Nat.reduceDiv]
  omega

theorem rowsOp_hits_iff : (∃ r ∈ rowsOp, r.hits w = true) ↔
    w.toNat % 2 ^ 7 = 0x33 ∧ (w.toNat / 2 ^ 25 = 0 ∨
      (w.toNat / 2 ^ 25 = 0x20 ∧ (w.toNat / 2 ^ 12 % 2 ^ 3 = 0 ∨ w.toNat / 2 ^ 12 % 2 ^ 3 = 5))) := by
  simp (disch := decide) only [rowsOp, rowR, Row.hits_iff, and_funct7_eq_iff_toNat,
    List.exists_mem_cons_iff, List.not_mem_nil, false_and, exists_false, or_false,
    BitVec.reduceToNat, Nat.reducePow, Nat.reduceMod, Nat.reduceDiv]
  omega

theorem rowsFenceAndSystem_hits_iff : (∃ r ∈ rowsFenceAndSystem, r.hits w = true) ↔
    (w.toNat % 2 ^ 7 = 0x0F ∧ w.toNat / 2 ^ 12 % 2 ^ 3 = 0) ∨ w = 0x00000073#32 ∨
      w = 0x00100073#32 := by
  have hall : w &&& 0xFFFFFFFF#32 = w := BitVec.and_allOnes
  simp (disch := decide) only [rowsFenceAndSystem, Row.hits_iff, and_funct3_eq_iff_toNat, hall,
    List.exists_mem_cons_iff, List.not_mem_nil, false_and, exists_false, or_false,
    BitVec.reduceToNat, Nat.reducePow, Nat.reduceMod, Nat.reduceDiv]

end

/-! ## Fields as numbers (R74 to R82) -/

/-- Putting bits in front of others adds their value, shifted past the others. -/
theorem toNat_append_eq {m n : Nat} (a : BitVec m) (b : BitVec n) :
    (a ++ b).toNat = a.toNat * 2 ^ n + b.toNat := by
  rw [BitVec.toNat_append, ← Nat.shiftLeft_add_eq_or_of_lt b.isLt, Nat.shiftLeft_eq]

theorem toInt_immIField (w : Word) : (immIField w).toInt =
    (w.toNat / 2 ^ 20 % 2 ^ 11 : Nat) - 2048 * (w.toNat / 2 ^ 31 % 2 : Nat) := by
  have := w.isLt
  rw [BitVec.toInt_eq_toNat_cond, immIField, toNat_piece]
  split <;> omega

theorem toInt_immSField (w : Word) : (immSField w).toInt = 32 * (w.toNat / 2 ^ 25 % 2 ^ 6 : Nat)
    + (w.toNat / 2 ^ 7 % 2 ^ 5 : Nat) - 2048 * (w.toNat / 2 ^ 31 % 2 : Nat) := by
  have hsign : w.toNat / 2 ^ 31 = w.toNat / 2 ^ 25 / 2 ^ 6 := by
    rw [Nat.div_div_eq_div_mul, ← Nat.pow_add]
  rw [BitVec.toInt_eq_toNat_cond, immSField, toNat_append_eq, toNat_piece, toNat_piece]
  split <;> omega

theorem toInt_immBField (w : Word) : (immBField w).toInt = 2048 * (w.toNat / 2 ^ 7 % 2 : Nat)
    + 32 * (w.toNat / 2 ^ 25 % 2 ^ 6 : Nat) + 2 * (w.toNat / 2 ^ 8 % 2 ^ 4 : Nat)
    - 4096 * (w.toNat / 2 ^ 31 % 2 : Nat) := by
  have := w.isLt
  simp only [BitVec.toInt_eq_toNat_cond, immBField, toNat_append_eq, toNat_piece, BitVec.toNat_zero]
  split <;> omega

theorem toInt_immJField (w : Word) : (immJField w).toInt = 4096 * (w.toNat / 2 ^ 12 % 2 ^ 8 : Nat)
    + 2048 * (w.toNat / 2 ^ 20 % 2 : Nat) + 2 * (w.toNat / 2 ^ 21 % 2 ^ 10 : Nat)
    - 1048576 * (w.toNat / 2 ^ 31 % 2 : Nat) := by
  have := w.isLt
  simp only [BitVec.toInt_eq_toNat_cond, immJField, toNat_append_eq, toNat_piece, BitVec.toNat_zero]
  split <;> omega

end Sys2Proof

/-! SUPPORT. The HINT code points in the word (R201): opcode and `rd` field say which. -/

namespace Sys2Proof.Machine

/-- Of the instructions, those with the opcode OP-IMM, OP, LUI or AUIPC are the integer computational
ones, and their destination stands in the `rd` field. -/
theorem computationalDest_encode (i : Instr) : computationalDest i =
    if (encode i).extractLsb' 0 7 ∈ [0x13#7, 0x33#7, 0x37#7, 0x17#7] then some (rdField (encode i))
    else none := by
  cases i <;> simp [computationalDest, encode]

/-- The NOP's word is the word of no other instruction. -/
theorem encode_eq_nop_iff {i : Instr} (hwf : WellFormed i = true) : encode i = 0x00000013#32 ↔ i = nop := by
  constructor
  · intro h
    have hnop : decode (encode i) = .ok nop := by
      rw [h]
      decide
    exact Except.ok.inj ((decode_encode hwf).symm.trans hnop)
  · rintro rfl
    decide

end Sys2Proof.Machine

/-! The statements on the encoding (30_encoding.md). -/

namespace Sys2Proof.Proofs

open Sys2Proof.Machine

/-- Settles O1: by the instruction's row; its bytes make the word again. -/
theorem decodeOfEncode : Obligations.DecodeOfEncode := fun i hwf =>
  ⟨decode_encode hwf, fun rest => by
    simp only [encodeBytes, parcelBytes, List.cons_append, List.nil_append, decodeBytes,
      wordOfParcels_parcelBytes, decode_encode hwf]⟩

/-- Settles O2: the row that selected the word is exact. -/
theorem encodeOfDecode : Obligations.EncodeOfDecode := fun _ _ h => encode_of_decode h

/-- Settles O3: two rows with a word in common are the same row. -/
theorem noWordMatchesTwoRows : Obligations.NoWordMatchesTwoRows := by
  refine ⟨fun w p q hp hq hpw hqw => ?_, fun w htso => ?_⟩
  · rw [row_eq_of_hits hp hq hpw hqw]
    exact ⟨rfl, rfl, rfl⟩
  · exact ⟨rowFence, rowFence_mem, rfl, rowFence_hits_of_tso htso⟩

/-- Settles O4: a word decodes exactly when a row selects it, and each group of rows is a clause. -/
theorem acceptedWordsByFields : Obligations.AcceptedWordsByFields := by
  intro w
  simp only [decodes_iff, rows, List.mem_append, or_and_right, exists_or,
    rowsUpperAndJump_hits_iff, rowsBranch_hits_iff,
    rowsMemory_hits_iff, rowsOpImm_hits_iff, rowsOp_hits_iff, rowsFenceAndSystem_hits_iff, or_assoc]

/-- Settles O5: the decoder evaluated on each word. -/
theorem sampleWordsDecode : Obligations.SampleWordsDecode := by
  unfold Obligations.SampleWordsDecode
  decide

/-- Settles O6: a piece of a word is a quotient and a remainder, and an append a weighted sum. -/
theorem fieldsAsNumbers : Obligations.FieldsAsNumbers := fun w =>
  ⟨congrArg Nat.cast (toNat_piece w 7 5), congrArg Nat.cast (toNat_piece w 15 5),
    congrArg Nat.cast (toNat_piece w 20 5), congrArg Nat.cast (toNat_piece w 20 5),
    toInt_immIField w, toInt_immSField w, toInt_immBField w,
    congrArg Nat.cast (toNat_piece w 12 20), toInt_immJField w⟩

/-- Settles O7: the word of an instruction shows its opcode and its destination, and of the words only
the NOP's decodes to the NOP. -/
theorem hintCodePoints : Obligations.HintCodePoints := by
  intro w i hdecode
  obtain ⟨hwf, rfl⟩ := encode_of_decode hdecode
  refine ⟨?_, ?_⟩
  · have hrd : rdField (encode i) = 0#5 ↔ (encode i).toNat / 2 ^ 7 % 2 ^ 5 = 0 := by
      rw [BitVec.toNat_eq, rdField, toNat_piece]
      rfl
    have hop : (encode i).extractLsb' 0 7 ∈ [0x13#7, 0x33#7, 0x37#7, 0x17#7] ↔
        ((encode i).toNat % 2 ^ 7 = 0x13 ∨ (encode i).toNat % 2 ^ 7 = 0x33 ∨
          (encode i).toNat % 2 ^ 7 = 0x37 ∨ (encode i).toNat % 2 ^ 7 = 0x17) := by
      simp [BitVec.toNat_eq]
    rw [computationalDest_encode, ← hop, ← hrd]
    simp
  · rw [Ne, encode_eq_nop_iff hwf]
    simp [isHint]

end Sys2Proof.Proofs

/-! SUPPORT. The fetch (R48, R61, R234 steps 1 to 4): which word it gives, and what a step does with it. -/

namespace Sys2Proof.Machine

/-! ## Bytes of a read -/

/-- Two words with the same four bytes are the same word. -/
theorem word_eq_of_bytes {v w : Word}
    (h : ∀ k < 4, v.extractLsb' (8 * k) 8 = w.extractLsb' (8 * k) 8) : v = w := by
  refine BitVec.eq_of_getLsbD_eq fun i hi => ?_
  have hbyte := congrArg (BitVec.getLsbD · (i % 8)) (h (i / 8) (by omega))
  simpa [BitVec.getLsbD_extractLsb', Nat.mod_lt, Nat.div_add_mod] using hbyte

/-- Byte `k` of the joined bytes of a read, least significant lowest. -/
theorem joinBytes_bytesRead_extract (s : State) (log : List IoEvent) (a : Word) {n k : Nat} (hk : k < n)
    (hn : n ≤ 4) : (joinBytes (bytesRead s log a n)).extractLsb' (8 * k) 8
      = byteRead s (Config.ioReply log) a k := by
  have hlen : k < (bytesRead s log a n).length := by simpa using hk
  rw [joinBytes_extract _ _ (by omega), List.getElem?_eq_getElem hlen, Option.getD_some,
    bytesRead_getElem]

theorem byteRead_of_main {s : State} {reply a : Word} {k : Nat}
    (h : kindAt s.cfg.memMap (a + BitVec.ofNat 32 k) ≠ .io) :
    byteRead s reply a k = s.mem.read (a + BitVec.ofNat 32 k).toNat := if_neg h

theorem byteRead_of_io {s : State} {reply a : Word} {k : Nat}
    (h : kindAt s.cfg.memMap (a + BitVec.ofNat 32 k) = .io) :
    byteRead s reply a k = reply.extractLsb' (8 * k) 8 := if_pos h

theorem touchesIo_eq_false_iff {map : MemMap} {a : Word} {n : Nat} :
    touchesIo map a n = false ↔ ∀ k < n, kindAt map (a + BitVec.ofNat 32 k) ≠ .io := by
  rw [← Bool.not_eq_true, touchesIo_iff]
  simp

theorem accessible_eq_false_iff {map : MemMap} {k : AccessKind} {a : Word} {n : Nat} :
    accessible map k a n = false ↔ ∃ j < n, accessibleAt map k (a + BitVec.ofNat 32 j) = false := by
  rw [← Bool.not_eq_true, accessible_iff]
  simp

/-- The log only grows, by at most the access's one event (R58 item 3). -/
theorem ioAfter_prefix (s : State) (event : IoEvent) (a : Word) (n : Nat) :
    s.io <+: ioAfter s event a n := by
  unfold ioAfter
  split
  · exact List.prefix_append s.io [event]
  · exact List.prefix_refl s.io

theorem ioAfter_of_main {s : State} {a : Word} {n : Nat} (event : IoEvent)
    (h : touchesIo s.cfg.memMap a n = false) : ioAfter s event a n = s.io := by
  rw [ioAfter, h]
  rfl

theorem ioAfter_of_io {s : State} {a : Word} {n : Nat} (event : IoEvent)
    (h : touchesIo s.cfg.memMap a n = true) : ioAfter s event a n = s.io ++ [event] := by
  rw [ioAfter, h]
  rfl

@[simp] theorem setIo_self (s : State) : s.setIo s.io = s := rfl

/-! ## The word fetched -/

theorem storedTo_iff {s : State} {a : Word} :
    storedTo s a = true ↔ ∃ k < 4, (a + BitVec.ofNat 32 k).toNat ∈ s.written := by
  simp [storedTo, span, List.any_eq_true]

/-- A fetch that is allowed gives the joined bytes at the pc. -/
theorem fetch_of_fetchable {s : State} (h : Claims.Fetchable s) :
    fetch s = .word (joinBytes (bytesRead s (ioAfter s (.fetch s.pc) s.pc 4) s.pc 4))
      (s.setIo (ioAfter s (.fetch s.pc) s.pc 4)) := by
  obtain ⟨haccess, hclean⟩ := h
  obtain ⟨hdenied, _⟩ | ⟨_, hrefuse, hstored, _⟩ | ⟨_, _, hword⟩ := fetch_cases s
  · rw [haccess] at hdenied
    cases hdenied
  · obtain hcoherent | hnone := hclean
    · rw [hrefuse] at hcoherent
      cases hcoherent
    · obtain ⟨k, hk, hmem⟩ := storedTo_iff.mp hstored
      exact absurd hmem (hnone k hk)
  · exact hword

/-- From main memory the fetch gives the word that memory holds, and leaves the state as it was. -/
theorem fetch_of_holdsWord {s : State} {w : Word} (h : Claims.Fetchable s) (hw : Claims.HoldsWord s w) :
    fetch s = .word w s := by
  have hmain : touchesIo s.cfg.memMap s.pc 4 = false :=
    touchesIo_eq_false_iff.mpr fun k hk => (hw k hk).1
  have hword : joinBytes (bytesRead s s.io s.pc 4) = w := word_eq_of_bytes fun k hk => by
    rw [joinBytes_bytesRead_extract s s.io s.pc hk le_rfl, byteRead_of_main (hw k hk).1, (hw k hk).2]
  rw [fetch_of_fetchable h, ioAfter_of_main _ hmain, hword, setIo_self]

/-- From I/O the fetch gives the device's reply, and is logged (logs 9 and 10). -/
theorem fetch_of_device {s : State} (h : Claims.Fetchable s)
    (hio : ∀ k < 4, kindAt s.cfg.memMap (s.pc + BitVec.ofNat 32 k) = .io) :
    fetch s = .word (Config.ioReply (s.io ++ [.fetch s.pc])) (s.setIo (s.io ++ [.fetch s.pc])) := by
  have htouch : touchesIo s.cfg.memMap s.pc 4 = true := touchesIo_iff.mpr ⟨0, by decide, hio 0 (by decide)⟩
  have hword : joinBytes (bytesRead s (s.io ++ [.fetch s.pc]) s.pc 4)
      = Config.ioReply (s.io ++ [.fetch s.pc]) := word_eq_of_bytes fun k hk => by
    rw [joinBytes_bytesRead_extract s _ s.pc hk le_rfl, byteRead_of_io (hio k hk)]
  rw [fetch_of_fetchable h, ioAfter_of_io _ htouch, hword]

/-! ## The step (R234) -/

section
variable {s s' : State} {w : Word}

theorem step_of_trap {r : TrapRecord} (htrap : s.trap = some r) : step s = afterTrap r s := by
  simp only [step, htrap]

theorem step_of_denied (htrap : s.trap = none) (h : fetch s = .denied) :
    step s = takeTrap .instructionAccessFault s.pc s := by
  simp only [step, htrap, fetchDecode, h]

theorem step_of_stale (htrap : s.trap = none) (h : fetch s = .stale) :
    step s = .refused .fetchAfterStore := by
  simp only [step, htrap, fetchDecode, h]

theorem step_of_decode_ok {i : Instr} (htrap : s.trap = none) (h : fetch s = .word w s')
    (hw : decode w = .ok i) : step s = exec i s' := by
  simp only [step, htrap, fetchDecode, h, hw]

theorem step_of_decode_error {e : DecodeError} (htrap : s.trap = none) (h : fetch s = .word w s')
    (hw : decode w = .error e) : step s = takeTrap .illegalInstruction w s' := by
  simp only [step, htrap, fetchDecode, h, hw]

end

/-- Everything a step can be: the EE's answer to a trap; one of the stops of the fetch; or, in the state
after the fetch, the trap of an illegal word or an instruction. -/
theorem step_cases (s : State) :
    (∃ r, s.trap = some r ∧ step s = afterTrap r s) ∨
    (s.trap = none ∧ accessible s.cfg.memMap .fetch s.pc 4 = false ∧
      step s = takeTrap .instructionAccessFault s.pc s) ∨
    (s.trap = none ∧ s.cfg.fetchAfterStore = .refuse ∧ accessible s.cfg.memMap .fetch s.pc 4 = true ∧
      storedTo s s.pc = true ∧ step s = .refused .fetchAfterStore) ∨
    (∃ w log, s.trap = none ∧ (s.cfg.fetchAfterStore = .coherent ∨ storedTo s s.pc = false) ∧
      s.io <+: log ∧
      ((∃ e, decode w = .error e ∧ step s = takeTrap .illegalInstruction w (s.setIo log)) ∨
       (∃ i, decode w = .ok i ∧ step s = exec i (s.setIo log)))) := by
  cases htrap : s.trap with
  | some r => exact .inl ⟨r, rfl, step_of_trap htrap⟩
  | none =>
    obtain ⟨haccess, h⟩ | ⟨haccess, hrefuse, hstored, h⟩ | ⟨_, hclean, h⟩ := fetch_cases s
    · exact .inr (.inl ⟨rfl, haccess, step_of_denied htrap h⟩)
    · exact .inr (.inr (.inl ⟨rfl, hrefuse, haccess, hstored, step_of_stale htrap h⟩))
    · obtain ⟨w, h⟩ : ∃ w, fetch s = .word w (s.setIo (ioAfter s (.fetch s.pc) s.pc 4)) := ⟨_, h⟩
      refine .inr (.inr (.inr ⟨w, _, rfl, hclean, ioAfter_prefix s (.fetch s.pc) s.pc 4, ?_⟩))
      cases hw : decode w with
      | error e => exact .inl ⟨e, rfl, step_of_decode_error htrap h hw⟩
      | ok i => exact .inr ⟨i, rfl, step_of_decode_ok htrap h hw⟩

/-! ## Placing a word (log 8) -/

/-- The four bytes that `mapWithFetch` puts in front of a map. -/
def fetchRegion (a : Word) : Region := ⟨a, 4, .main, true, true, true⟩

theorem mapWithFetch_cases (map : MemMap) (a : Word) :
    (accessible map .fetch a 4 = true ∧ touchesIo map a 4 = false ∧ mapWithFetch map a = map) ∨
    mapWithFetch map a = fetchRegion a :: map := by
  unfold mapWithFetch
  split
  · rename_i h
    obtain ⟨haccess, htouch⟩ := (Bool.and_eq_true_iff).mp h
    exact .inl ⟨haccess, Bool.not_eq_true' _ ▸ htouch, rfl⟩
  · exact .inr rfl

theorem regionAt_fetchRegion (map : MemMap) (a : Word) {k : Nat} (hk : k < 4) :
    regionAt (fetchRegion a :: map) (a + BitVec.ofNat 32 k) = some (fetchRegion a) := by
  have hoffset : (a + BitVec.ofNat 32 k - a).toNat < 4 := by bv_omega
  exact List.find?_cons_of_pos (by simpa [Region.holds, fetchRegion] using hoffset)

/-- The map that `placeWord` leaves lets the four bytes be fetched, from main memory. -/
theorem mapWithFetch_allows (map : MemMap) (a : Word) :
    accessible (mapWithFetch map a) .fetch a 4 = true ∧ touchesIo (mapWithFetch map a) a 4 = false := by
  obtain ⟨haccess, htouch, hmap⟩ | hmap := mapWithFetch_cases map a
  · rw [hmap]
    exact ⟨haccess, htouch⟩
  · rw [hmap]
    refine ⟨accessible_iff.mpr fun k hk => ?_, touchesIo_eq_false_iff.mpr fun k hk => ?_⟩
    · rw [accessibleAt, regionAt_fetchRegion map a hk]
      rfl
    · rw [kindAt, regionAt_fetchRegion map a hk]
      nofun

theorem fetchable_placeWord (w : Word) (s : State) : Claims.Fetchable (placeWord w s) := by
  refine ⟨(mapWithFetch_allows s.cfg.memMap s.pc).1, .inr fun k hk hmem => ?_⟩
  have hkept := (List.mem_filter.mp hmem).2
  simp only [Bool.not_eq_true', ← Bool.not_eq_true, List.any_eq_true, beq_iff_eq] at hkept
  exact hkept ⟨s.pc + BitVec.ofNat 32 k, mem_span.mpr ⟨k, hk, rfl⟩, rfl⟩

theorem parcelBytes_getElem (w : Word) : ∀ (k : Nat) (hk : k < (parcelBytes w).length),
    (parcelBytes w)[k] = w.extractLsb' (8 * k) 8
  | 0, _ | 1, _ | 2, _ | 3, _ => rfl

theorem holdsWord_placeWord (w : Word) (s : State) : Claims.HoldsWord (placeWord w s) w := by
  refine fun k hk => ⟨touchesIo_eq_false_iff.mp (mapWithFetch_allows s.cfg.memMap s.pc).2 k hk, ?_⟩
  exact (read_writeBytes [] s.pc (parcelBytes w) s.mem k hk
    (show 4 ≤ 2 ^ 32 by decide) nofun).trans
    (parcelBytes_getElem w k hk)

end Sys2Proof.Machine

/-! The statements on the step: what it fetches, and what it does with the word (60_exceptions.md
section 5). -/

namespace Sys2Proof.Proofs

open Sys2Proof.Machine

/-- Settles O8: the fetch gives the word that memory holds. -/
theorem stepRunsDecodedInstruction : Obligations.StepRunsDecodedInstruction :=
  fun _ _ _ htrap hfetch hholds hdecode =>
    step_of_decode_ok htrap (fetch_of_holdsWord hfetch hholds) hdecode

/-- Settles O9: as O8, with the word that decodes back to the instruction. -/
theorem stepRunsEncodedInstruction : Obligations.StepRunsEncodedInstruction :=
  fun s i htrap hfetch hwf hholds =>
    stepRunsDecodedInstruction s (encode i) i htrap hfetch hholds (decode_encode hwf)

/-- Settles O10: the placed word is fetchable and held, and no trap is pending. -/
theorem placedWordRunsNext : Obligations.PlacedWordRunsNext := by
  intro s w i hdecode
  have hword : tableWord 32 w = BitVec.ofNat 32 w := BitVec.eq_of_toNat_eq (by simp [tableWord])
  rw [State.withFetchWord, hword]
  exact ⟨step_of_decode_ok rfl (fetch_of_holdsWord (fetchable_placeWord _ s) (holdsWord_placeWord _ s))
    hdecode, ⟨fun _ => rfl, rfl⟩, rfl⟩

/-- Settles O12: the access check comes first of all. -/
theorem fetchFaultComesFirst : Obligations.FetchFaultComesFirst := by
  intro s htrap hbyte
  have hdenied : fetch s = .denied := by
    rw [fetch, accessible_eq_false_iff.mpr hbyte]
    rfl
  rw [step_of_denied htrap hdenied]
  exact takeTrap_trapTaken _ _ s

/-- Settles O14: the fetch gives the word that memory holds, and the state after it is the same. -/
theorem illegalWordTraps : Obligations.IllegalWordTraps := by
  intro s w e htrap hfetch hholds hdecode
  rw [step_of_decode_error htrap (fetch_of_holdsWord hfetch hholds) hdecode]
  exact takeTrap_trapTaken _ w s

/-- Settles O15: the fetch gives the device's reply. -/
theorem fetchFromDevice : Obligations.FetchFromDevice := by
  intro s htrap hfetch hio
  have hword := fetch_of_device hfetch hio
  dsimp only
  split
  · exact step_of_decode_ok htrap hword (by assumption)
  · exact step_of_decode_error htrap hword (by assumption)

end Sys2Proof.Proofs

/-! SUPPORT. The instructions by the shape of their meaning, and once for all of them, everything that an
instruction can do. -/

namespace Sys2Proof.Machine

/-! ## Shapes -/

/-- The sizes of an access. -/
inductive Width where
  | byte
  | half
  | word

def Width.bytes : Width → Nat
  | .byte => 1
  | .half => 2
  | .word => 4

/-- What an instruction does, with what it reads as its type says: a computed value, a jump's target and
a branch's condition are functions of the registers, and of the pc only where `Word` is an argument. -/
inductive Shape where
  | compute (rd : Reg) (value : (Reg → Word) → Word)
  | addPc (rd : Reg) (offset : Word)
  | advance
  | jump (rd : Reg) (target : (Reg → Word) → Word → Word)
  | branch (taken : (Reg → Word) → Bool) (imm : BitVec 13)
  | load (width : Width) (extend : Word → Word) (rd rs1 : Reg) (imm : BitVec 12)
  | store (width : Width) (rs2 rs1 : Reg) (imm : BitVec 12)
  | ecall
  | ebreak

/-- The shared operation that a shape stands for. -/
def Shape.run : Shape → State → Result
  | .compute rd value, s => writeReg rd (value s.x) s
  | .addPc rd offset, s => writeReg rd (s.pc + offset) s
  | .advance, s => Machine.advance s
  | .jump rd target, s => transfer (target s.x s.pc) (s.setX rd s.nextPc) s
  | .branch taken imm, s => Machine.branch (taken s.x) imm s
  | .load width extend rd rs1 imm, s => Machine.load width.bytes extend rd rs1 imm s
  | .store width rs2 rs1 imm, s => Machine.store width.bytes rs2 rs1 imm s
  | .ecall, s => takeTrap .environmentCall 0#32 s
  | .ebreak, s => takeTrap .breakpoint s.pc s

/-- The shape of each instruction. -/
def shape : Instr → Shape
  | .lui rd imm => .compute rd fun _ => immUpper imm
  | .auipc rd imm => .addPc rd (immUpper imm)
  | .jal rd imm => .jump rd fun _ pc => pc + imm21 imm
  | .jalr rd rs1 imm => .jump rd fun x _ => (x rs1 + imm12 imm) &&& 0xFFFFFFFE#32
  | .beq rs1 rs2 imm => .branch (fun x => x rs1 == x rs2) imm
  | .bne rs1 rs2 imm => .branch (fun x => x rs1 != x rs2) imm
  | .blt rs1 rs2 imm => .branch (fun x => lessSigned (x rs1) (x rs2)) imm
  | .bge rs1 rs2 imm => .branch (fun x => !lessSigned (x rs1) (x rs2)) imm
  | .bltu rs1 rs2 imm => .branch (fun x => lessUnsigned (x rs1) (x rs2)) imm
  | .bgeu rs1 rs2 imm => .branch (fun x => !lessUnsigned (x rs1) (x rs2)) imm
  | .lb rd rs1 imm => .load .byte (fun v => (v.setWidth 8).signExtend 32) rd rs1 imm
  | .lh rd rs1 imm => .load .half (fun v => (v.setWidth 16).signExtend 32) rd rs1 imm
  | .lw rd rs1 imm => .load .word (fun v => v) rd rs1 imm
  | .lbu rd rs1 imm => .load .byte (fun v => (v.setWidth 8).setWidth 32) rd rs1 imm
  | .lhu rd rs1 imm => .load .half (fun v => (v.setWidth 16).setWidth 32) rd rs1 imm
  | .sb rs2 rs1 imm => .store .byte rs2 rs1 imm
  | .sh rs2 rs1 imm => .store .half rs2 rs1 imm
  | .sw rs2 rs1 imm => .store .word rs2 rs1 imm
  | .addi rd rs1 imm => .compute rd fun x => x rs1 + imm12 imm
  | .slti rd rs1 imm => .compute rd fun x => flagWord (lessSigned (x rs1) (imm12 imm))
  | .sltiu rd rs1 imm => .compute rd fun x => flagWord (lessUnsigned (x rs1) (imm12 imm))
  | .xori rd rs1 imm => .compute rd fun x => x rs1 ^^^ imm12 imm
  | .ori rd rs1 imm => .compute rd fun x => x rs1 ||| imm12 imm
  | .andi rd rs1 imm => .compute rd fun x => x rs1 &&& imm12 imm
  | .slli rd rs1 shamt => .compute rd fun x => x rs1 <<< shamt.toNat
  | .srli rd rs1 shamt => .compute rd fun x => x rs1 >>> shamt.toNat
  | .srai rd rs1 shamt => .compute rd fun x => (x rs1).sshiftRight shamt.toNat
  | .add rd rs1 rs2 => .compute rd fun x => x rs1 + x rs2
  | .sub rd rs1 rs2 => .compute rd fun x => x rs1 - x rs2
  | .sll rd rs1 rs2 => .compute rd fun x => x rs1 <<< shiftAmount (x rs2)
  | .slt rd rs1 rs2 => .compute rd fun x => flagWord (lessSigned (x rs1) (x rs2))
  | .sltu rd rs1 rs2 => .compute rd fun x => flagWord (lessUnsigned (x rs1) (x rs2))
  | .xor rd rs1 rs2 => .compute rd fun x => x rs1 ^^^ x rs2
  | .srl rd rs1 rs2 => .compute rd fun x => x rs1 >>> shiftAmount (x rs2)
  | .sra rd rs1 rs2 => .compute rd fun x => (x rs1).sshiftRight (shiftAmount (x rs2))
  | .or rd rs1 rs2 => .compute rd fun x => x rs1 ||| x rs2
  | .and rd rs1 rs2 => .compute rd fun x => x rs1 &&& x rs2
  | .fenceTso _ _ => .advance
  | .fence _ _ _ _ _ => .advance
  | .ecall => .ecall
  | .ebreak => .ebreak

/-- Every instruction is its shape. -/
theorem exec_eq_run (i : Instr) (s : State) : exec i s = (shape i).run s := by
  cases i <;> rfl

/-! ## The classes of instructions, by shape -/

def Shape.isTransfer : Shape → Bool
  | .jump _ _ | .branch _ _ => true
  | _ => false

def Shape.isLoad : Shape → Bool
  | .load _ _ _ _ _ => true
  | _ => false

def Shape.isStore : Shape → Bool
  | .store _ _ _ _ => true
  | _ => false

/-- The exceptions of R211 by shape: an access of one byte is never misaligned. -/
def Shape.mayRaise : Shape → List Cause
  | .compute _ _ | .addPc _ _ | .advance => []
  | .jump _ _ | .branch _ _ => [.instructionAddressMisaligned]
  | .load .byte _ _ _ _ => [.loadAccessFault]
  | .load _ _ _ _ _ => [.loadAddressMisaligned, .loadAccessFault]
  | .store .byte _ _ _ => [.storeAccessFault]
  | .store _ _ _ _ => [.storeAddressMisaligned, .storeAccessFault]
  | .ecall => [.environmentCall]
  | .ebreak => [.breakpoint]

theorem isTransfer_shape (i : Instr) : (shape i).isTransfer = Claims.isTransfer i := by cases i <;> rfl

theorem isLoad_shape (i : Instr) : (shape i).isLoad = Claims.isLoad i := by cases i <;> rfl

theorem isStore_shape (i : Instr) : (shape i).isStore = Claims.isStore i := by cases i <;> rfl

theorem mayRaise_shape (i : Instr) : (shape i).mayRaise = Claims.mayRaise i := by cases i <;> rfl

/-! ## Misaligned accesses -/

/-- The exception is for an address that is no multiple of the access's size, under `trap` (R50). -/
theorem misalignedData_iff {cfg : Config} {a : Word} {n : Nat} :
    misalignedData cfg a n = true ↔ cfg.misaligned = .trap ∧ a.toNat % n ≠ 0 := by
  simp [misalignedData]

/-- An address that is no multiple of the access's size is no multiple of 4. -/
theorem Width.not_aligned {width : Width} {cfg : Config} {a : Word}
    (h : misalignedData cfg a width.bytes = true) : a.toNat % 4 ≠ 0 := by
  have hsize := (misalignedData_iff.mp h).2
  cases width <;> simp only [Width.bytes] at hsize <;> omega

/-- A byte is never misaligned. -/
theorem misalignedData_one (cfg : Config) (a : Word) : misalignedData cfg a 1 = false := by
  simp [misalignedData, Nat.mod_one]

theorem Width.ne_byte {width : Width} {cfg : Config} {a : Word}
    (h : misalignedData cfg a width.bytes = true) : width ≠ .byte := by
  rintro rfl
  rw [Width.bytes, misalignedData_one] at h
  cases h

/-! ## What an instruction can do -/

/-- What is true of every instruction that completes: the trap record, the replies and the parameters
stay; the log grows at most; memory and Written stay, but for the bytes of a store; the pc advances,
but for an aligned target of a transfer. -/
structure Completes (sh : Shape) (s t : State) : Prop where
  outside : SameOutside s t
  io : s.io <+: t.io
  memory : (t.mem = s.mem ∧ t.written = s.written) ∨
    (sh.isStore = true ∧ ∃ a n bytes, t.mem = writeBytes s.cfg.memMap a bytes s.mem ∧
      t.written = addSpan a n s.written)
  pc : t.pc = s.pc + 4#32 ∨ (sh.isTransfer = true ∧ t.pc.toNat % 4 = 0)

/-- A trap that the instruction may raise, with the value that R211 records. -/
structure Raises (sh : Shape) (s : State) (c : Cause) (v : Word) : Prop where
  cause : c ∈ sh.mayRaise
  sound : TrapRecord.Sound { cause := c, pc := s.pc, value := v }

theorem completes_writeReg (sh : Shape) (rd : Reg) (v : Word) (s : State) :
    Completes sh s ((s.setX rd v).setPc (s.pc + 4#32)) :=
  ⟨⟨rfl, rfl, rfl⟩, List.prefix_refl _, .inl ⟨rfl, rfl⟩, .inl rfl⟩

theorem completes_advance (sh : Shape) (s : State) : Completes sh s (s.setPc (s.pc + 4#32)) :=
  ⟨⟨rfl, rfl, rfl⟩, List.prefix_refl _, .inl ⟨rfl, rfl⟩, .inl rfl⟩

/-- Everything a shape can do: complete, or take one of its traps. -/
theorem run_cases (sh : Shape) (s : State) :
    (∃ t, sh.run s = .next t ∧ Completes sh s t) ∨
    (∃ c v, sh.run s = takeTrap c v s ∧ Raises sh s c v) := by
  cases sh with
  | compute rd value => exact .inl ⟨_, rfl, completes_writeReg _ rd _ s⟩
  | addPc rd offset => exact .inl ⟨_, rfl, completes_writeReg _ rd _ s⟩
  | advance => exact .inl ⟨_, rfl, completes_advance _ s⟩
  | jump rd target =>
    obtain ⟨haligned, h⟩ | ⟨hmisaligned, h⟩ :=
      transfer_cases (target s.x s.pc) (s.setX rd s.nextPc) s
    · exact .inl ⟨_, h, ⟨rfl, rfl, rfl⟩, List.prefix_refl _, .inl ⟨rfl, rfl⟩, .inr ⟨rfl, haligned⟩⟩
    · exact .inr ⟨_, _, h, List.mem_singleton_self _, hmisaligned⟩
  | branch taken imm =>
    obtain ⟨_, h⟩ | ⟨_, h⟩ := branch_cases (taken s.x) imm s
    · exact .inl ⟨_, h, completes_advance _ s⟩
    · obtain ⟨haligned, h'⟩ | ⟨hmisaligned, h'⟩ := transfer_cases (branchTarget imm s) s s
      · exact .inl ⟨_, h.trans h', ⟨rfl, rfl, rfl⟩, List.prefix_refl _, .inl ⟨rfl, rfl⟩,
          .inr ⟨rfl, haligned⟩⟩
      · exact .inr ⟨_, _, h.trans h', List.mem_singleton_self _, hmisaligned⟩
  | load width extend rd rs1 imm =>
    obtain ⟨hmis, h⟩ | ⟨_, _, h⟩ | ⟨_, _, h⟩ := load_cases width.bytes extend rd rs1 imm s
    · refine .inr ⟨_, _, h, ?_, Width.not_aligned hmis⟩
      cases width with
      | byte => exact absurd rfl (Width.ne_byte hmis)
      | half | word => exact List.mem_cons_self
    · refine .inr ⟨_, _, h, ?_, trivial⟩
      cases width <;> simp [Shape.mayRaise]
    · exact .inl ⟨_, h, ⟨rfl, rfl, rfl⟩, ioAfter_prefix s _ _ _, .inl ⟨rfl, rfl⟩, .inl rfl⟩
  | store width rs2 rs1 imm =>
    obtain ⟨hmis, h⟩ | ⟨_, _, h⟩ | ⟨_, _, h⟩ := store_cases width.bytes rs2 rs1 imm s
    · refine .inr ⟨_, _, h, ?_, Width.not_aligned hmis⟩
      cases width with
      | byte => exact absurd rfl (Width.ne_byte hmis)
      | half | word => exact List.mem_cons_self
    · refine .inr ⟨_, _, h, ?_, trivial⟩
      cases width <;> simp [Shape.mayRaise]
    · exact .inl ⟨_, h, ⟨rfl, rfl, rfl⟩, ioAfter_prefix s _ _ _,
        .inr ⟨rfl, _, _, _, rfl, rfl⟩, .inl rfl⟩
  | ecall => exact .inr ⟨_, _, rfl, List.mem_singleton_self _, rfl⟩
  | ebreak => exact .inr ⟨_, _, rfl, List.mem_singleton_self _, rfl⟩

/-- An instruction that answers `t` has completed, or `t` is the state with its trap. -/
theorem exec_next_cases {i : Instr} {s t : State} (h : exec i s = .next t) :
    Completes (shape i) s t ∨
    (∃ c v, t = s.setTrap (some { cause := c, pc := s.pc, value := v }) ∧ Raises (shape i) s c v) := by
  rw [exec_eq_run] at h
  obtain ⟨u, hu, hcompletes⟩ | ⟨c, v, htrap, hraises⟩ := run_cases (shape i) s
  · obtain rfl : t = u := Host.Outcome.next.inj (h.symm.trans hu)
    exact .inl hcompletes
  · exact .inr ⟨c, v, Host.Outcome.next.inj (h.symm.trans htrap), hraises⟩

/-- From a running state: a state without a record has completed, one with a record has trapped. -/
theorem completes_of_no_trap {i : Instr} {s t : State} (h : exec i s = .next t) (htrap : t.trap = none) :
    Completes (shape i) s t := by
  obtain hcompletes | ⟨c, v, rfl, _⟩ := exec_next_cases h
  · exact hcompletes
  · cases htrap

theorem raises_of_trap {i : Instr} {s t : State} {r : TrapRecord} (hs : s.trap = none)
    (h : exec i s = .next t) (htrap : t.trap = some r) :
    t = s.setTrap (some { cause := r.cause, pc := s.pc, value := r.value }) ∧
      Raises (shape i) s r.cause r.value := by
  obtain ⟨houtside, -, -, -⟩ | ⟨c, v, rfl, hraises⟩ := exec_next_cases h
  · rw [houtside.1, hs] at htrap
    cases htrap
  · obtain rfl := Option.some.inj htrap
    exact ⟨rfl, hraises⟩

end Sys2Proof.Machine

/-! SUPPORT. What an instruction reads: its meaning in two states that differ in memory, or in the pc. -/

namespace Sys2Proof.Machine

/-! ## Each outcome of an access by its checks (R169) -/

section
variable {n : Nat} {extend : Word → Word} {r rs1 : Reg} {imm : BitVec 12} {s : State}

theorem load_of_misaligned (h : misalignedData s.cfg (effectiveAddress rs1 imm s) n = true) :
    load n extend r rs1 imm s = takeTrap .loadAddressMisaligned (effectiveAddress rs1 imm s) s := by
  simp only [load, memRead, h, if_true]

theorem load_of_inaccessible (h : misalignedData s.cfg (effectiveAddress rs1 imm s) n = false)
    (ha : accessible s.cfg.memMap .load (effectiveAddress rs1 imm s) n = false) :
    load n extend r rs1 imm s = takeTrap .loadAccessFault (effectiveAddress rs1 imm s) s := by
  simp only [load, memRead, h, ha, Bool.false_eq_true, if_false]

theorem load_of_accessible (h : misalignedData s.cfg (effectiveAddress rs1 imm s) n = false)
    (ha : accessible s.cfg.memMap .load (effectiveAddress rs1 imm s) n = true) :
    load n extend r rs1 imm s =
      writeReg r (extend (joinBytes (inMemoryOrder s.cfg.endian (bytesRead s
        (ioAfter s (.load (effectiveAddress rs1 imm s) n) (effectiveAddress rs1 imm s) n)
        (effectiveAddress rs1 imm s) n))))
        (s.setIo (ioAfter s (.load (effectiveAddress rs1 imm s) n) (effectiveAddress rs1 imm s) n)) := by
  simp only [load, memRead, h, ha, Bool.false_eq_true, if_false, if_true]

theorem store_of_misaligned (h : misalignedData s.cfg (effectiveAddress rs1 imm s) n = true) :
    store n r rs1 imm s = takeTrap .storeAddressMisaligned (effectiveAddress rs1 imm s) s := by
  simp only [store, memWrite, h, if_true]

theorem store_of_inaccessible (h : misalignedData s.cfg (effectiveAddress rs1 imm s) n = false)
    (ha : accessible s.cfg.memMap .store (effectiveAddress rs1 imm s) n = false) :
    store n r rs1 imm s = takeTrap .storeAccessFault (effectiveAddress rs1 imm s) s := by
  simp only [store, memWrite, h, ha, Bool.false_eq_true, if_false]

theorem store_of_accessible (h : misalignedData s.cfg (effectiveAddress rs1 imm s) n = false)
    (ha : accessible s.cfg.memMap .store (effectiveAddress rs1 imm s) n = true) :
    store n r rs1 imm s = advance ((s.setStored
      (writeBytes s.cfg.memMap (effectiveAddress rs1 imm s)
        (inMemoryOrder s.cfg.endian (splitBytes n (s.x r))) s.mem)
      (addSpan (effectiveAddress rs1 imm s) n s.written)).setIo
      (ioAfter s (.store (effectiveAddress rs1 imm s) n (joinBytes (splitBytes n (s.x r))))
        (effectiveAddress rs1 imm s) n)) := by
  simp only [store, memWrite, h, ha, Bool.false_eq_true, if_false, if_true]

end

theorem transfer_eq_takeTrap {t : Word} (h : t.toNat % 4 ≠ 0) (after s : State) :
    transfer t after s = takeTrap .instructionAddressMisaligned t s := by
  obtain ⟨haligned, _⟩ | ⟨_, htrap⟩ := transfer_cases t after s
  · exact absurd haligned h
  · exact htrap

/-! ## Another memory -/

/-- A transfer does not look at memory: from another memory the same state follows, with that memory. -/
theorem transfer_setStored {target : Word} {after s t : State} (m : Memory)
    (h : transfer target after s = .next t) :
    ∃ m', transfer target (after.setStored m after.written) (s.setStored m s.written)
      = .next (t.setStored m' t.written) := by
  obtain ⟨haligned, ht⟩ | ⟨hmisaligned, ht⟩ := transfer_cases target after s
  · obtain rfl := Host.Outcome.next.inj (ht.symm.trans h)
    exact ⟨m, transfer_of_aligned haligned _ _⟩
  · obtain rfl := Host.Outcome.next.inj (ht.symm.trans h)
    exact ⟨m, transfer_eq_takeTrap hmisaligned _ _⟩

/-- An instruction that is no load leaves, from another memory, the same state but for the memory. -/
theorem run_setStored {sh : Shape} {s t : State} (m : Memory) (hload : sh.isLoad = false)
    (h : sh.run s = .next t) :
    ∃ m', sh.run (s.setStored m s.written) = .next (t.setStored m' t.written) := by
  cases sh with
  | compute | addPc | advance | ecall | ebreak =>
    obtain rfl := Host.Outcome.next.inj h
    exact ⟨m, rfl⟩
  | jump rd target => exact transfer_setStored m h
  | branch taken imm =>
    obtain ⟨hnot, hb⟩ | ⟨htaken, hb⟩ := branch_cases (taken s.x) imm s
    · obtain rfl := Host.Outcome.next.inj (hb.symm.trans h)
      exact ⟨m, congrArg (Machine.branch · imm _) hnot⟩
    · obtain ⟨m', ht⟩ := transfer_setStored m (hb.symm.trans h)
      exact ⟨m', (congrArg (Machine.branch · imm _) htaken).trans ht⟩
  | load => cases hload
  | store width rs2 rs1 imm =>
    obtain ⟨hmis, ht⟩ | ⟨hmis, haccess, ht⟩ | ⟨hmis, haccess, ht⟩ := store_cases width.bytes rs2 rs1 imm s
    · obtain rfl := Host.Outcome.next.inj (ht.symm.trans h)
      exact ⟨m, store_of_misaligned hmis⟩
    · obtain rfl := Host.Outcome.next.inj (ht.symm.trans h)
      exact ⟨m, store_of_inaccessible hmis haccess⟩
    · obtain rfl := Host.Outcome.next.inj (ht.symm.trans h)
      exact ⟨_, store_of_accessible hmis haccess⟩

/-! ## Another pc -/

/-- The same registers, memory, Written and log, and a trap of the same cause or none. -/
structure SameButPc (t u : State) : Prop where
  regs : u.regs = t.regs
  mem : u.mem = t.mem
  written : u.written = t.written
  io : u.io = t.io
  cause : u.trap.map (·.cause) = t.trap.map (·.cause)

/-- An instruction that is no transfer and not AUIPC does the same at another pc. -/
theorem run_setPc {sh : Shape} {s t : State} (p : Word) (htransfer : sh.isTransfer = false)
    (haddPc : ∀ rd offset, sh ≠ .addPc rd offset) (h : sh.run s = .next t) :
    ∃ u, sh.run (s.setPc p) = .next u ∧ SameButPc t u := by
  cases sh with
  | compute | advance | ecall | ebreak =>
    obtain rfl := Host.Outcome.next.inj h
    exact ⟨_, rfl, rfl, rfl, rfl, rfl, rfl⟩
  | addPc rd offset => exact absurd rfl (haddPc rd offset)
  | jump | branch => cases htransfer
  | load width extend rd rs1 imm =>
    obtain ⟨hmis, ht⟩ | ⟨hmis, haccess, ht⟩ | ⟨hmis, haccess, ht⟩ :=
      load_cases width.bytes extend rd rs1 imm s
    · obtain rfl := Host.Outcome.next.inj (ht.symm.trans h)
      exact ⟨_, load_of_misaligned (s := s.setPc p) hmis, rfl, rfl, rfl, rfl, rfl⟩
    · obtain rfl := Host.Outcome.next.inj (ht.symm.trans h)
      exact ⟨_, load_of_inaccessible (s := s.setPc p) hmis haccess, rfl, rfl, rfl, rfl, rfl⟩
    · obtain rfl := Host.Outcome.next.inj (ht.symm.trans h)
      exact ⟨_, load_of_accessible (s := s.setPc p) hmis haccess, rfl, rfl, rfl, rfl, rfl⟩
  | store width rs2 rs1 imm =>
    obtain ⟨hmis, ht⟩ | ⟨hmis, haccess, ht⟩ | ⟨hmis, haccess, ht⟩ := store_cases width.bytes rs2 rs1 imm s
    · obtain rfl := Host.Outcome.next.inj (ht.symm.trans h)
      exact ⟨_, store_of_misaligned (s := s.setPc p) hmis, rfl, rfl, rfl, rfl, rfl⟩
    · obtain rfl := Host.Outcome.next.inj (ht.symm.trans h)
      exact ⟨_, store_of_inaccessible (s := s.setPc p) hmis haccess, rfl, rfl, rfl, rfl, rfl⟩
    · obtain rfl := Host.Outcome.next.inj (ht.symm.trans h)
      exact ⟨_, store_of_accessible (s := s.setPc p) hmis haccess, rfl, rfl, rfl, rfl, rfl⟩

/-- Of the instructions only AUIPC adds to the pc. -/
theorem shape_ne_addPc {i : Instr} (h : ∀ rd imm, i ≠ .auipc rd imm) (rd : Reg) (offset : Word) :
    shape i ≠ .addPc rd offset := by
  cases i with
  | auipc rd' imm => exact absurd rfl (h rd' imm)
  | _ => nofun

end Sys2Proof.Machine

/-! SUPPORT. The invariant (State.Inv): what keeps it. -/

namespace Sys2Proof.Machine

theorem HartImage.toNat_pc (image : HartImage) : image.pc.toNat = 4 * image.pcIndex.toNat := by
  rw [HartImage.pc, toNat_append_eq, Nat.mul_comm]
  rfl

/-- The next address is a multiple of 4 with this one, past the end of the space too. -/
theorem aligned_add_four {a : Word} (h : a.toNat % 4 = 0) : (a + 4#32).toNat % 4 = 0 := by
  bv_omega

theorem inv_setIo {s : State} (h : s.Inv) (log : List IoEvent) : (s.setIo log).Inv := h

/-- Recording a sound trap at the pc keeps the invariant. -/
theorem inv_setTrap {s : State} (h : s.Inv) {c : Cause} {v : Word}
    (hsound : TrapRecord.Sound { cause := c, pc := s.pc, value := v }) :
    (s.setTrap (some { cause := c, pc := s.pc, value := v })).Inv := by
  obtain ⟨hmem, hsorted, hbound, hpc, -, hee⟩ := h
  refine ⟨hmem, hsorted, hbound, hpc, fun r hr => ?_, hee⟩
  obtain rfl := Option.some.inj hr
  exact ⟨rfl, hsound⟩

/-- Completing keeps the invariant in a running hart: a store's bytes keep the canonical forms, and the pc
goes to a multiple of 4. -/
theorem Completes.inv {sh : Shape} {s t : State} (hc : Completes sh s t) (h : s.Inv)
    (htrap : s.trap = none) : t.Inv := by
  obtain ⟨hmem, hsorted, hbound, hpc, -, hee⟩ := h
  obtain ⟨⟨htrap', hee', -⟩, -, hmemory, hpc'⟩ := hc
  obtain ⟨hmem', hsorted', hbound'⟩ :
      Memory.wf t.mem ∧ t.written.Pairwise (· < ·) ∧ ∀ a ∈ t.written, a < 2 ^ 32 := by
    obtain ⟨hm, hw⟩ | ⟨-, a, n, bytes, hm, hw⟩ := hmemory
    · rw [hm, hw]
      exact ⟨hmem, hsorted, hbound⟩
    · rw [hm, hw]
      refine ⟨wf_writeBytes hmem a bytes, sorted_addSpan hsorted a n, fun q hq => ?_⟩
      obtain hq | ⟨k, -, rfl⟩ := mem_addSpan.mp hq
      · exact hbound q hq
      · exact BitVec.isLt _
  have haligned : t.pc.toNat % 4 = 0 := by
    obtain hnext | ⟨-, htarget⟩ := hpc'
    · rw [hnext]
      exact aligned_add_four hpc
    · exact htarget
  refine ⟨hmem', hsorted', hbound', haligned, fun r hr => ?_, by rwa [hee']⟩
  rw [htrap', htrap] at hr
  cases hr

theorem exec_inv {i : Instr} {s t : State} (h : s.Inv) (htrap : s.trap = none)
    (hexec : exec i s = .next t) : t.Inv := by
  obtain hcompletes | ⟨c, v, rfl, hraises⟩ := exec_next_cases hexec
  · exact hcompletes.inv h htrap
  · exact inv_setTrap h hraises.sound

theorem afterTrap_of_no_reply (r : TrapRecord) {s : State} (h : s.ee = []) :
    afterTrap r s = .fault (.runEnded r) := by
  simp only [afterTrap, h]

theorem afterTrap_of_reply (r : TrapRecord) {s : State} {image : HartImage} {rest : List HartImage}
    (h : s.ee = image :: rest) : afterTrap r s = .next { s with
      regs := image.regs, pc := image.pc, mem := image.mem, trap := none, ee := rest } := by
  simp only [afterTrap, h]

/-- The state that the EE resumes the hart in has the invariant: the image's memory is canonical, and its
pc a multiple of 4. -/
theorem afterTrap_inv {r : TrapRecord} {s t : State} (h : s.Inv) (hafter : afterTrap r s = .next t) :
    t.Inv := by
  obtain ⟨-, hsorted, hbound, -, -, hee⟩ := h
  obtain ⟨-, hended⟩ | ⟨image, rest, himages, hresumed⟩ := afterTrap_cases r s
  · rw [hended] at hafter
    cases hafter
  · obtain rfl := Host.Outcome.next.inj (hresumed.symm.trans hafter)
    rw [himages] at hee
    obtain ⟨himage, hrest⟩ := List.forall_mem_cons.mp hee
    exact ⟨himage, hsorted, hbound, by rw [HartImage.toNat_pc]; exact Nat.mul_mod_right .., nofun, hrest⟩

theorem step_inv {s t : State} (h : s.Inv) (hstep : step s = .next t) : t.Inv := by
  obtain ⟨r, -, hs⟩ | ⟨-, -, hs⟩ | ⟨-, -, -, -, hs⟩ | ⟨w, log, htrap, -, -, hs⟩ := step_cases s
  · exact afterTrap_inv h (hs.symm.trans hstep)
  · obtain rfl := Host.Outcome.next.inj (hs.symm.trans hstep)
    exact inv_setTrap h rfl
  · rw [hs] at hstep
    cases hstep
  · obtain ⟨e, hdecode, hs⟩ | ⟨i, -, hs⟩ := hs
    · obtain rfl := Host.Outcome.next.inj (hs.symm.trans hstep)
      exact inv_setTrap (inv_setIo h log) fun i hi => by rw [hdecode] at hi; cases hi
    · exact exec_inv (inv_setIo h log) htrap (hs.symm.trans hstep)

/-! ## History -/

/-- What a step cannot take back: the parameters, the addresses stored to, the accesses logged. -/
structure KeepsHistory (s t : State) : Prop where
  cfg : t.cfg = s.cfg
  written : ∀ a ∈ s.written, a ∈ t.written
  io : s.io <+: t.io

theorem Completes.keepsHistory {sh : Shape} {s t : State} (h : Completes sh s t) : KeepsHistory s t := by
  obtain ⟨⟨-, -, hcfg⟩, hio, hmemory, -⟩ := h
  refine ⟨hcfg, fun a ha => ?_, hio⟩
  obtain ⟨-, hw⟩ | ⟨-, _, _, _, -, hw⟩ := hmemory
  · rwa [hw]
  · rw [hw]
    exact mem_addSpan.mpr (.inl ha)

/-- An instruction keeps the history and uses no reply of the EE. -/
theorem exec_keepsHistory {i : Instr} {s t : State} (h : exec i s = .next t) : KeepsHistory s t ∧ t.ee = s.ee := by
  obtain hcompletes | ⟨c, v, rfl, -⟩ := exec_next_cases h
  · obtain ⟨-, hee, -⟩ := hcompletes.outside
    exact ⟨hcompletes.keepsHistory, hee⟩
  · exact ⟨⟨rfl, fun _ ha => ha, List.prefix_refl _⟩, rfl⟩

/-! ## Registers -/

/-- A register read, as the place of the register in the file. -/
theorem x_eq_getElem (s : State) (q : Reg) :
    s.x q = if _hq : q = 0#5 then 0#32 else s.regs[q.toNat - 1]'(by have := q.isLt; omega) := by
  unfold State.x
  split <;> rfl

end Sys2Proof.Machine

/-! The statements on every step and every instruction: what it answers, keeps, changes and reads. -/

namespace Sys2Proof.Proofs

open Sys2Proof.Machine

/-- Settles O17: completing and trapping are both next states. -/
theorem everyInstructionAnswersNext : Obligations.EveryInstructionAnswersNext := by
  intro i s
  rw [exec_eq_run]
  obtain ⟨t, ht, -⟩ | ⟨c, v, ht, -⟩ := run_cases (shape i) s
  · exact ⟨t, ht⟩
  · exact ⟨_, ht⟩

/-- Settles O11: of the four ways a step can go, two can stop. -/
theorem stepOutcomes : Obligations.StepOutcomes := by
  intro s
  obtain ⟨r, htrap, hs⟩ | ⟨-, -, hs⟩ | ⟨htrap, hrefuse, haccess, hstored, hs⟩ | ⟨w, log, -, -, -, hs⟩ :=
    step_cases s
  · obtain ⟨hnone, hended⟩ | ⟨image, rest, -, hresumed⟩ := afterTrap_cases r s
    · exact .inr (.inl ⟨r, htrap, hnone, hs.trans hended⟩)
    · exact .inl ⟨_, hs.trans hresumed⟩
  · exact .inl ⟨_, hs⟩
  · exact .inr (.inr ⟨htrap, hrefuse, haccess, storedTo_iff.mp hstored, hs⟩)
  · obtain ⟨e, -, hs⟩ | ⟨i, -, hs⟩ := hs
    · exact .inl ⟨_, hs⟩
    · obtain ⟨t, ht⟩ := everyInstructionAnswersNext i (s.setIo log)
      exact .inl ⟨t, hs.trans ht⟩

/-- Settles O13: of the outcomes of O11, a running hart has the first or the refusal, and only the parameter
decides. -/
theorem fetchOfStoredBytes : Obligations.FetchOfStoredBytes := by
  intro s htrap haccess hstored
  refine ⟨fun hrefuse => step_of_stale htrap ?_, fun hcoherent => ?_⟩
  · rw [fetch, haccess, hrefuse, storedTo_iff.mpr hstored]
    rfl
  · obtain hnext | ⟨r, hr, -⟩ | ⟨-, hrefuse, -⟩ := stepOutcomes s
    · exact hnext
    · rw [htrap] at hr
      cases hr
    · rw [hcoherent] at hrefuse
      cases hrefuse

/-- Settles O16: the two outcomes of the EE's answer. -/
theorem afterTrapEndsOrResumes : Obligations.AfterTrapEndsOrResumes := by
  intro s r htrap
  rw [step_of_trap htrap]
  refine ⟨afterTrap_of_no_reply r, fun image rest himages => ⟨_, afterTrap_of_reply r himages,
    fun q => x_eq_getElem _ q, image.toNat_pc, rfl, rfl, rfl, rfl, rfl, rfl⟩⟩

/-- Settles O18: the state with the record is the old state, the record apart. -/
theorem trapIsPrecise : Obligations.TrapIsPrecise := by
  intro i s t r hs hexec htrap
  obtain ⟨rfl, -⟩ := raises_of_trap hs hexec htrap
  exact ⟨rfl, ⟨fun _ => rfl, rfl⟩, rfl, ⟨fun _ => rfl, rfl, rfl⟩, rfl, rfl, rfl⟩

/-- Settles O19: the causes of an instruction are those of its shape. -/
theorem trapCausesByInstruction : Obligations.TrapCausesByInstruction := by
  intro i s t r hs hexec htrap
  obtain ⟨-, hraises⟩ := raises_of_trap hs hexec htrap
  rw [← mayRaise_shape]
  exact hraises.cause

/-- Settles O20: each way a step can go keeps the invariant. -/
theorem stepKeepsInvariant : Obligations.StepKeepsInvariant := fun _ _ => step_inv

/-- Settles O21: nothing is stored, no trap is pending, and the image's pc is a multiple of 4. -/
theorem invariantAtStart : Obligations.InvariantAtStart := by
  have hstart : ∀ (image : HartImage) (ee : List HartImage) (cfg : Config), Memory.wf image.mem →
      (∀ e ∈ ee, Memory.wf e.mem) → (State.start image ee cfg).Inv := fun image ee cfg hmem hee =>
    ⟨hmem, List.Pairwise.nil, nofun, by
      rw [State.start, HartImage.toNat_pc]; exact Nat.mul_mod_right .., nofun, hee⟩
  exact ⟨hstart, hstart HartImage.atReset [] Config.decided (by decide) nofun⟩

/-- Settles O22: the start state is its image; at reset the one region of the map holds every address. -/
theorem startState : Obligations.StartState := by
  have hregion : ∀ a : Word, regionAt State.reset.cfg.memMap a =
      some ⟨0#32, 2 ^ 32, .main, true, true, true⟩ := fun a => List.find?_cons_of_pos (by
    simpa [Region.holds] using a.isLt)
  refine ⟨fun image ee cfg => ⟨rfl, fun q hq => ?_, image.toNat_pc, rfl, rfl, rfl, rfl, rfl, rfl⟩,
    fun q => ?_, by decide, fun _ => rfl, rfl, rfl, rfl, rfl, rfl, rfl, rfl, fun a k => ⟨?_, ?_⟩⟩
  · rw [x_eq_getElem, dif_neg hq]
    rfl
  · rw [x_eq_getElem]
    split
    · rfl
    · exact Vector.getElem_replicate _
  · rw [kindAt, hregion a]
  · rw [accessibleAt, hregion a]
    cases k <;> rfl

/-- Settles O23: an instruction keeps the history, and so does a resumption, which uses one reply. -/
theorem stepKeepsHistory : Obligations.StepKeepsHistory := by
  intro s t hstep
  obtain ⟨r, -, hs⟩ | ⟨-, -, hs⟩ | ⟨-, -, -, -, hs⟩ | ⟨w, log, -, -, hlog, hs⟩ := step_cases s
  · obtain ⟨-, hended⟩ | ⟨image, rest, himages, hresumed⟩ := afterTrap_cases r s
    · rw [hs, hended] at hstep
      cases hstep
    · obtain rfl := Host.Outcome.next.inj ((hs.trans hresumed).symm.trans hstep)
      exact ⟨rfl, fun _ ha => ha, List.prefix_refl _, .inr ⟨image, himages⟩⟩
  · obtain rfl := Host.Outcome.next.inj (hs.symm.trans hstep)
    exact ⟨rfl, fun _ ha => ha, List.prefix_refl _, .inl rfl⟩
  · rw [hs] at hstep
    cases hstep
  · obtain ⟨e, -, hs⟩ | ⟨i, -, hs⟩ := hs
    · obtain rfl := Host.Outcome.next.inj (hs.symm.trans hstep)
      exact ⟨rfl, fun _ ha => ha, hlog, .inl rfl⟩
    · obtain ⟨⟨hcfg, hwritten, hio⟩, hee⟩ := exec_keepsHistory (hs.symm.trans hstep)
      exact ⟨hcfg, hwritten, hlog.trans hio, .inl hee⟩

/-- Settles O24: the only completion that changes memory is a store's, and a trap changes none. -/
theorem onlyStoresChangeMemory : Obligations.OnlyStoresChangeMemory := by
  intro i s t hstore hexec
  obtain ⟨-, -, hmemory, -⟩ | ⟨c, v, rfl, -⟩ := exec_next_cases hexec
  · obtain ⟨hm, hw⟩ | ⟨hstore', -⟩ := hmemory
    · exact ⟨fun a => by rw [hm], hm, hw⟩
    · rw [isStore_shape, hstore] at hstore'
      cases hstore'
  · exact ⟨fun _ => rfl, rfl, rfl⟩

/-- Settles O25: the two runs end in states that differ in memory alone. -/
theorem onlyLoadsReadMemory : Obligations.OnlyLoadsReadMemory := by
  intro i s t m hload hexec
  rw [exec_eq_run] at hexec
  obtain ⟨m', hrun⟩ := run_setStored m (isLoad_shape i ▸ hload) hexec
  exact ⟨_, (exec_eq_run i _).trans hrun, rfl, rfl, rfl, rfl, rfl⟩

/-- Settles O26: a completion that does not advance is a transfer's. -/
theorem onlyTransfersRedirect : Obligations.OnlyTransfersRedirect := by
  intro i s t htransfer _ hexec htrap
  obtain hnext | ⟨htransfer', -⟩ := (completes_of_no_trap hexec htrap).pc
  · exact hnext
  · rw [isTransfer_shape, htransfer] at htransfer'
    cases htransfer'

/-- Settles O27: the shapes that are left do not take the pc as an argument. -/
theorem onlyTransfersAndAuipcReadPc : Obligations.OnlyTransfersAndAuipcReadPc := by
  intro i s t p htransfer hauipc _ hexec
  rw [exec_eq_run] at hexec
  obtain ⟨u, hrun, hregs, hmem, hwritten, hio, hcause⟩ :=
    run_setPc p (isTransfer_shape i ▸ htransfer) (shape_ne_addPc hauipc) hexec
  exact ⟨u, (exec_eq_run i _).trans hrun, hregs, hmem, hwritten, hio, hcause⟩

/-- Settles O28: the law of a read after a write, at the same and at another register. -/
theorem registerFileBehaves : Obligations.RegisterFileBehaves := by
  refine fun s r q v => ⟨x_zero s, setX_zero s v, fun hr => ?_, fun hqr => ?_⟩
  · rw [x_setX, if_neg hr, if_pos rfl]
  · rw [x_setX, if_neg hqr]
    split
    · rename_i hq
      rw [hq, x_zero]
    · rfl

end Sys2Proof.Proofs

/-! SUPPORT. The loads and stores (R160 to R170): the value an access reads and the bytes it writes, by the
byte order (R47), and the rules that all loads, and all stores, share. -/

namespace Sys2Proof.Machine

/-! ## Addresses -/

theorem effectiveAddress_eq_ofInt (rs1 : Reg) (imm : BitVec 12) (s : State) :
    effectiveAddress rs1 imm s = BitVec.ofInt 32 ((s.x rs1).toInt + imm.toInt) :=
  add_signExtend_eq_ofInt (by decide) (s.x rs1) imm

theorem misalignedData_eq_false {cfg : Config} {a : Word} {n : Nat}
    (h : cfg.misaligned = .support ∨ a.toNat % n = 0) : misalignedData cfg a n = false := by
  rw [← Bool.not_eq_true, misalignedData_iff]
  rintro ⟨htrap, hmod⟩
  obtain hsupport | haligned := h
  · rw [htrap] at hsupport
    cases hsupport
  · exact hmod haligned

/-! ## Byte order (R47) -/

theorem byteOrder_lt (e : Endian) {n k : Nat} (hk : k < n) : byteOrder e n k < n := by
  cases e with
  | little => exact hk
  | big =>
    simp only [byteOrder]
    omega

/-- Turning the order of `n` bytes round twice changes nothing. -/
theorem byteOrder_twice (e : Endian) {n k : Nat} (hk : k < n) : byteOrder e n (byteOrder e n k) = k := by
  cases e with
  | little => rfl
  | big =>
    simp only [byteOrder]
    omega

/-- One byte has one order. -/
theorem byteOrder_one (e : Endian) : byteOrder e 1 0 = 0 := by
  cases e <;> rfl

/-- The byte at place `k` of the memory order is the byte of significance `byteOrder k`. -/
theorem inMemoryOrder_getElem (e : Endian) (bytes : List Byte) {k : Nat} (hk : k < bytes.length) :
    (inMemoryOrder e bytes)[k]'(by rwa [inMemoryOrder_length])
      = bytes[byteOrder e bytes.length k]'(byteOrder_lt e hk) := by
  cases e with
  | little => rfl
  | big => exact List.getElem_reverse _

/-- Of the value joined from bytes in memory order, the byte of significance `byteOrder k` is byte `k`. -/
theorem joinBytes_inMemoryOrder_extract (e : Endian) (bytes : List Byte) {k : Nat}
    (hk : k < bytes.length) (hlen : bytes.length ≤ 4) :
    (joinBytes (inMemoryOrder e bytes)).extractLsb' (8 * byteOrder e bytes.length k) 8 = bytes[k] := by
  have hlt := byteOrder_lt e hk
  rw [joinBytes_extract _ _ (by omega), List.getElem?_eq_getElem (by rwa [inMemoryOrder_length]),
    Option.getD_some, inMemoryOrder_getElem e bytes hlt]
  simp only [byteOrder_twice e hk]

/-- Splitting a value and joining its bytes keeps its low `8 * n` bits. -/
theorem getLsbD_joinBytes_splitBytes (n : Nat) (v : Word) (i : Nat) :
    (joinBytes (splitBytes n v)).getLsbD i = (decide (i < 8 * n) && v.getLsbD i) := by
  induction n generalizing v i with
  | zero => simp [splitBytes, joinBytes]
  | succ n ih =>
    simp only [splitBytes, joinBytes, BitVec.getLsbD_or, BitVec.getLsbD_shiftLeft, ih,
      BitVec.getLsbD_ushiftRight, BitVec.getLsbD_setWidth]
    by_cases h8 : i < 8
    · have hin : i < 8 * (n + 1) := by omega
      have h32 : i < 32 := by omega
      simp [h8, hin, h32]
    · have hsub : 8 + (i - 8) = i := by omega
      have hiff : i - 8 < 8 * n ↔ i < 8 * (n + 1) := by omega
      by_cases h32 : i < 32
      · simp [h8, h32, hsub, hiff]
      · simp [h8, h32, BitVec.getLsbD_of_ge v i (by omega)]

/-- The low `n` bytes of a value, as the value modulo 2^(8n). -/
theorem joinBytes_splitBytes (n : Nat) (v : Word) :
    joinBytes (splitBytes n v) = BitVec.ofNat 32 (v.toNat % 2 ^ (8 * n)) := by
  refine BitVec.eq_of_getLsbD_eq fun i hi => ?_
  rw [getLsbD_joinBytes_splitBytes, BitVec.getLsbD_ofNat, Nat.testBit_mod_two_pow, decide_eq_true hi,
    Bool.true_and, BitVec.testBit_toNat]

/-- A value below 2^(8n) whose `n` bytes are those of `x` is `x` modulo 2^(8n). -/
theorem eq_ofNat_mod_of_bytes {e : Endian} {n : Nat} {v x : Word} (hlt : v.toNat < 2 ^ (8 * n))
    (h : ∀ k < n, v.extractLsb' (8 * byteOrder e n k) 8 = x.extractLsb' (8 * byteOrder e n k) 8) :
    v = BitVec.ofNat 32 (x.toNat % 2 ^ (8 * n)) := by
  refine BitVec.eq_of_getLsbD_eq fun i hi => ?_
  rw [BitVec.getLsbD_ofNat, Nat.testBit_mod_two_pow, decide_eq_true hi, Bool.true_and,
    BitVec.testBit_toNat]
  by_cases hin : i < 8 * n
  · have hbyte := h (byteOrder e n (i / 8)) (byteOrder_lt e (by omega))
    rw [byteOrder_twice e (by omega)] at hbyte
    have hbit := congrArg (BitVec.getLsbD · (i % 8)) hbyte
    simpa [hin, BitVec.getLsbD_extractLsb', Nat.mod_lt, Nat.div_add_mod] using hbit
  · have hpow : 2 ^ (8 * n) ≤ 2 ^ i := Nat.pow_le_pow_right (by decide) (by omega)
    rw [← BitVec.testBit_toNat, Nat.testBit_lt_two_pow (hlt.trans_le hpow)]
    simp [hin]

/-! ## The rule of a load -/

/-- The value that a read of `n` bytes at `a` gives (R47), above it zeros. -/
def readValue (s : State) (a : Word) (n : Nat) : Word :=
  joinBytes (inMemoryOrder s.cfg.endian (bytesRead s (ioAfter s (.load a n) a n) a n))

theorem readValue_extract (s : State) (a : Word) {n k : Nat} (hk : k < n) (hn : n ≤ 4) :
    (readValue s a n).extractLsb' (8 * byteOrder s.cfg.endian n k) 8
      = byteRead s (Config.ioReply (ioAfter s (.load a n) a n)) a k := by
  have hbyte := joinBytes_inMemoryOrder_extract s.cfg.endian
    (bytesRead s (ioAfter s (.load a n) a n) a n) (k := k) (by simpa using hk) (by simpa using hn)
  simpa only [readValue, bytesRead_length, bytesRead_getElem] using hbyte

/-- What an accessible load leaves: the extended value in `rd`, the access in the log, the pc advanced. -/
theorem load_next {n : Nat} {extend : Word → Word} {rd rs1 : Reg} {imm : BitVec 12} {s : State}
    (h : misalignedData s.cfg (effectiveAddress rs1 imm s) n = false)
    (ha : accessible s.cfg.memMap .load (effectiveAddress rs1 imm s) n = true) :
    load n extend rd rs1 imm s = .next (((s.setIo (ioAfter s (.load (effectiveAddress rs1 imm s) n)
      (effectiveAddress rs1 imm s) n)).setX rd (extend (readValue s (effectiveAddress rs1 imm s) n))).setPc
        (s.pc + 4#32)) :=
  load_of_accessible h ha

/-- The rule of the loads for a row whose meaning is a load of `n` bytes, where `extend` keeps these. -/
theorem loads_of_row {name : String} {pat : Word} {mk : Reg → Reg → BitVec 12 → Instr} {n : Nat}
    {extend : Word → Word} {extended : Word → Prop} (hrow : rowI name pat mk ∈ rows)
    (hpat : pat ≠ 0x0000000F#32)
    (hexec : ∀ rd rs1 imm s, exec (mk rd rs1 imm) s = load n extend rd rs1 imm s) (hn : n ≤ 4)
    (hkeeps : ∀ v, ∀ j < n, (extend v).extractLsb' (8 * j) 8 = v.extractLsb' (8 * j) 8)
    (hextended : ∀ v, extended (extend v)) : Claims.Loads pat mk n extended := by
  refine ⟨namesWords_of_mem hrow hpat, fun rd rs1 imm s => ?_⟩
  refine ⟨effectiveAddress_eq_ofInt rs1 imm s, fun haligned hdenied => ?_, fun haligned haccess => ?_⟩
  · rw [hexec, load_of_inaccessible (misalignedData_eq_false haligned) hdenied]
    exact takeTrap_trapTaken _ _ s
  · have hbyte : ∀ k < n, (extend (readValue s (effectiveAddress rs1 imm s) n)).extractLsb'
        (8 * byteOrder s.cfg.endian n k) 8 = byteRead s (Config.ioReply (ioAfter s
          (.load (effectiveAddress rs1 imm s) n) (effectiveAddress rs1 imm s) n))
          (effectiveAddress rs1 imm s) k := fun k hk => by
      rw [hkeeps _ _ (byteOrder_lt _ hk), readValue_extract s _ hk hn]
    refine ⟨_, extend (readValue s (effectiveAddress rs1 imm s) n),
      (hexec rd rs1 imm s).trans (load_next (misalignedData_eq_false haligned) haccess), x_setX _ rd _,
      hextended _, fun k hk hmain => ?_, fun k hk hio => ?_, rfl, ⟨fun _ => rfl, rfl, rfl⟩,
      ⟨rfl, rfl, rfl⟩, rfl⟩
    · rw [hbyte k hk, byteRead_of_main hmain]
    · rw [hbyte k hk, byteRead_of_io hio, ioAfter_of_io _ (touchesIo_iff.mpr ⟨k, hk, hio⟩)]

/-! ## The rule of a store -/

/-- What an accessible store leaves: the bytes in memory order from the address on, their addresses in
Written, the access in the log, the pc advanced. -/
theorem store_next {n : Nat} {rs2 rs1 : Reg} {imm : BitVec 12} {s : State}
    (h : misalignedData s.cfg (effectiveAddress rs1 imm s) n = false)
    (ha : accessible s.cfg.memMap .store (effectiveAddress rs1 imm s) n = true) :
    store n rs2 rs1 imm s = .next (((s.setStored
      (writeBytes s.cfg.memMap (effectiveAddress rs1 imm s)
        (inMemoryOrder s.cfg.endian (splitBytes n (s.x rs2))) s.mem)
      (addSpan (effectiveAddress rs1 imm s) n s.written)).setIo
      (ioAfter s (.store (effectiveAddress rs1 imm s) n (BitVec.ofNat 32 ((s.x rs2).toNat % 2 ^ (8 * n))))
        (effectiveAddress rs1 imm s) n)).setPc (s.pc + 4#32)) := by
  rw [store_of_accessible h ha, joinBytes_splitBytes]
  rfl

/-- The byte that a store puts `k` bytes above its address. -/
theorem inMemoryOrder_splitBytes_getElem (e : Endian) (n : Nat) (v : Word) {k : Nat}
    (hk : k < (inMemoryOrder e (splitBytes n v)).length) :
    (inMemoryOrder e (splitBytes n v))[k] = v.extractLsb' (8 * byteOrder e n k) 8 := by
  rw [inMemoryOrder_getElem e _ (by simpa using hk), splitBytes_getElem, splitBytes_length]

/-- The rule of the stores for a row whose meaning is a store of `n` bytes. -/
theorem stores_of_row {name : String} {pat : Word} {mk : Reg → Reg → BitVec 12 → Instr} {n : Nat}
    (hrow : rowS name pat mk ∈ rows) (hpat : pat ≠ 0x0000000F#32)
    (hexec : ∀ rs2 rs1 imm s, exec (mk rs2 rs1 imm) s = store n rs2 rs1 imm s) (hn : n ≤ 4) :
    Claims.Stores pat mk n := by
  refine ⟨namesWords_of_mem hrow hpat, fun rs2 rs1 imm s => ?_⟩
  refine ⟨effectiveAddress_eq_ofInt rs1 imm s, fun haligned hdenied => ?_, fun haligned haccess => ?_⟩
  · rw [hexec, store_of_inaccessible (misalignedData_eq_false haligned) hdenied]
    exact takeTrap_trapTaken _ _ s
  · have hlen : (inMemoryOrder s.cfg.endian (splitBytes n (s.x rs2))).length = n := by simp
    refine ⟨_, (hexec rs2 rs1 imm s).trans (store_next (misalignedData_eq_false haligned) haccess),
      fun k hk hmain => ?_, fun q hq => ?_, fun q => mem_addSpan, ⟨fun _ => rfl, rfl⟩, rfl,
      ⟨rfl, rfl, rfl⟩, rfl⟩
    · exact (read_writeBytes _ _ _ s.mem k (hlen.symm ▸ hk) (by omega) hmain).trans
        (inMemoryOrder_splitBytes_getElem s.cfg.endian n (s.x rs2) (hlen.symm ▸ hk))
    · exact read_writeBytes_other _ _ _ s.mem q fun k hk => hq k (hlen ▸ hk)

/-! ## Misaligned accesses (R50, R169) -/

theorem trapsMisaligned_of_load {mk : Reg → Reg → BitVec 12 → Instr} {n : Nat} {extend : Word → Word}
    (hexec : ∀ rd rs1 imm s, exec (mk rd rs1 imm) s = load n extend rd rs1 imm s) :
    Claims.TrapsMisaligned mk n .loadAddressMisaligned := by
  intro rd rs1 imm s htrap hmod
  rw [hexec, load_of_misaligned (misalignedData_iff.mpr ⟨htrap, hmod⟩)]
  exact takeTrap_trapTaken _ _ s

theorem trapsMisaligned_of_store {mk : Reg → Reg → BitVec 12 → Instr} {n : Nat}
    (hexec : ∀ rs2 rs1 imm s, exec (mk rs2 rs1 imm) s = store n rs2 rs1 imm s) :
    Claims.TrapsMisaligned mk n .storeAddressMisaligned := by
  intro rs2 rs1 imm s htrap hmod
  rw [hexec, store_of_misaligned (misalignedData_iff.mpr ⟨htrap, hmod⟩)]
  exact takeTrap_trapTaken _ _ s

/-! ## Each load and store, and how the loads extend -/

theorem exec_lw (rd rs1 : Reg) (imm : BitVec 12) (s : State) :
    exec (.lw rd rs1 imm) s = load 4 (fun v => v) rd rs1 imm s := rfl

theorem exec_lh (rd rs1 : Reg) (imm : BitVec 12) (s : State) :
    exec (.lh rd rs1 imm) s = load 2 (fun v => (v.setWidth 16).signExtend 32) rd rs1 imm s := rfl

theorem exec_lhu (rd rs1 : Reg) (imm : BitVec 12) (s : State) :
    exec (.lhu rd rs1 imm) s = load 2 (fun v => (v.setWidth 16).setWidth 32) rd rs1 imm s := rfl

theorem exec_lb (rd rs1 : Reg) (imm : BitVec 12) (s : State) :
    exec (.lb rd rs1 imm) s = load 1 (fun v => (v.setWidth 8).signExtend 32) rd rs1 imm s := rfl

theorem exec_lbu (rd rs1 : Reg) (imm : BitVec 12) (s : State) :
    exec (.lbu rd rs1 imm) s = load 1 (fun v => (v.setWidth 8).setWidth 32) rd rs1 imm s := rfl

theorem exec_sw (rs2 rs1 : Reg) (imm : BitVec 12) (s : State) :
    exec (.sw rs2 rs1 imm) s = store 4 rs2 rs1 imm s := rfl

theorem exec_sh (rs2 rs1 : Reg) (imm : BitVec 12) (s : State) :
    exec (.sh rs2 rs1 imm) s = store 2 rs2 rs1 imm s := rfl

theorem exec_sb (rs2 rs1 : Reg) (imm : BitVec 12) (s : State) :
    exec (.sb rs2 rs1 imm) s = store 1 rs2 rs1 imm s := rfl

/-- Sign extension from `m` bits keeps what lies below bit `m`. -/
theorem extractLsb'_signExtend_setWidth (v : Word) {m lo len : Nat} (h : lo + len ≤ m) (hm : m ≤ 32) :
    ((v.setWidth m).signExtend 32).extractLsb' lo len = v.extractLsb' lo len := by
  ext i hi
  have h1 : lo + i < m := by omega
  have h2 : lo + i < 32 := by omega
  simp [BitVec.getElem_signExtend, h1, h2]

/-- So does zero extension. -/
theorem extractLsb'_setWidth_setWidth (v : Word) {m lo len : Nat} (h : lo + len ≤ m) (hm : m ≤ 32) :
    ((v.setWidth m).setWidth 32).extractLsb' lo len = v.extractLsb' lo len := by
  ext i hi
  have h1 : lo + i < m := by omega
  have h2 : lo + i < 32 := by omega
  simp [h1, h2]

/-- A sign-extended value is the signed value of its low `m` bits. -/
theorem toInt_signExtend_setWidth (v : Word) {m : Nat} (hm : m ≤ 32) :
    ((v.setWidth m).signExtend 32).toInt = (((v.setWidth m).signExtend 32).setWidth m).toInt := by
  have hlow : ((v.setWidth m).signExtend 32).setWidth m = v.setWidth m := by
    ext i hi
    have h32 : i < 32 := by omega
    simp [BitVec.getElem_signExtend, hi, h32]
  rw [hlow, BitVec.toInt_signExtend_of_le hm]

theorem toNat_setWidth_setWidth_lt {m : Nat} (v : Word) :
    ((v.setWidth m).setWidth 32).toNat < 2 ^ m := by
  rw [BitVec.toNat_setWidth 32]
  exact (Nat.mod_le _ _).trans_lt (v.setWidth m).isLt

end Sys2Proof.Machine

/-! SUPPORT. Writes to one register in a row, and what stays the same over two instructions. -/

namespace Sys2Proof.Machine

theorem SameMemory.trans {s t u : State} : SameMemory s t → SameMemory t u → SameMemory s u :=
  fun ⟨hread, hmem, hwritten⟩ ⟨hread', hmem', hwritten'⟩ =>
    ⟨fun a => (hread' a).trans (hread a), hmem'.trans hmem, hwritten'.trans hwritten⟩

theorem SameOutside.trans {s t u : State} : SameOutside s t → SameOutside t u → SameOutside s u :=
  fun ⟨htrap, hee, hcfg⟩ ⟨htrap', hee', hcfg'⟩ =>
    ⟨htrap'.trans htrap, hee'.trans hee, hcfg'.trans hcfg⟩

/-- Of two writes to a register the second counts. -/
theorem WritesOnly.trans {rd : Reg} {v v' : Word} {s t u : State} (h : WritesOnly rd v s t)
    (h' : WritesOnly rd v' t u) : WritesOnly rd v' s u := by
  intro r
  rw [h' r, h r]
  split_ifs <;> rfl

/-- A write after states whose registers read the same is a write to the first. -/
theorem SameRegisters.writesOnly {rd : Reg} {v : Word} {s t u : State} (h : SameRegisters s t)
    (h' : WritesOnly rd v t u) : WritesOnly rd v s u := by
  intro r
  rw [h' r, h.1 r]

/-- The value written matters only where the register is not `x0` (R21). -/
theorem WritesOnly.congr {rd : Reg} {v v' : Word} {s t : State} (h : WritesOnly rd v s t)
    (hv : rd ≠ 0#5 → v = v') : WritesOnly rd v' s t := by
  intro r
  rw [h r]
  split_ifs with h0 hr
  · rfl
  · exact hv (hr ▸ h0)
  · rfl

theorem WritesOnly.x_self {rd : Reg} {v : Word} {s t : State} (h : WritesOnly rd v s t)
    (hrd : rd ≠ 0#5) : t.x rd = v := by
  rw [h rd, if_neg hrd, if_pos rfl]

/-! ## Constants in two parts (R130) -/

/-- The low part, sign-extended: 2^12 less where bit 11 is set, modulo 2^32. -/
theorem toNat_imm12_lowPart (c : Word) : (imm12 (lowPart c)).toNat
    = (c.toNat % 2 ^ 12 + 2 ^ 32 - c.toNat / 2 ^ 11 % 2 * 2 ^ 12) % 2 ^ 32 := by
  have hvalue := toNat_imm12 (lowPart c)
  have hlow : (lowPart c).toNat = c.toNat % 2 ^ 12 := by
    rw [lowPart, toNat_piece, Nat.pow_zero, Nat.div_one]
  rw [BitVec.toInt_eq_toNat_cond, hlow] at hvalue
  split at hvalue <;> omega

/-- The high part makes up for the sign of the low part. -/
theorem toNat_highPart (c : Word) :
    (highPart c).toNat = (c.toNat / 2 ^ 12 + c.toNat / 2 ^ 11 % 2) % 2 ^ 20 := by
  have hlow := toNat_imm12_lowPart c
  have hc := c.isLt
  rw [highPart, toNat_piece, ← imm12, toNat_sub_word, hlow]
  omega

/-- The two parts of a constant add up to it. -/
theorem immUpper_highPart_add (c : Word) : immUpper (highPart c) + imm12 (lowPart c) = c := by
  have hc := c.isLt
  refine BitVec.eq_of_toNat_eq ?_
  rw [BitVec.toNat_add, toNat_immUpper, toNat_highPart, toNat_imm12_lowPart]
  omega

/-! ## JALR (R143) -/

theorem exec_jalr (rd rs1 : Reg) (imm : BitVec 12) (s : State) :
    exec (.jalr rd rs1 imm) s = transfer (jalrTarget rs1 imm s) (s.setX rd s.nextPc) s := rfl

/-- Clearing bit 0 rounds down to an even number (decision D12). -/
theorem toNat_clear_bit0 (w : Word) : (w &&& 0xFFFFFFFE#32).toNat = 2 * (w.toNat / 2) := by
  have hshift : w &&& 0xFFFFFFFE#32 = (w >>> 1) <<< 1 := by
    refine BitVec.eq_of_getLsbD_eq fun i hi => ?_
    simp only [BitVec.getLsbD_and, BitVec.getLsbD_shiftLeft, BitVec.getLsbD_ushiftRight]
    interval_cases i <;> simp
  have hw := w.isLt
  rw [hshift, toNat_shiftLeft_word, toNat_ushiftRight_word]
  omega

theorem jalrTarget_eq (rs1 : Reg) (imm : BitVec 12) (s : State) : jalrTarget rs1 imm s =
    BitVec.ofNat 32 (2 * ((BitVec.ofInt 32 ((s.x rs1).toInt + imm.toInt)).toNat / 2)) := by
  have hsum : s.x rs1 + imm12 imm = BitVec.ofInt 32 ((s.x rs1).toInt + imm.toInt) :=
    effectiveAddress_eq_ofInt rs1 imm s
  rw [jalrTarget, hsum, ← toNat_clear_bit0, BitVec.ofNat_toNat, BitVec.setWidth_eq]

/-- After a first instruction that leaves in `rd` what the low part of `c` makes up to an aligned target,
JALR jumps there. -/
theorem jalr_reaches {rd : Reg} {v c target : Word} {s t : State} (hrd : rd ≠ 0#5)
    (hcomputes : Computes rd v s t) (hsum : v + imm12 (lowPart c) = target)
    (haligned : target.toNat % 4 = 0) :
    ∃ u, exec (.jalr rd rd (lowPart c)) t = .next u ∧ u.pc = target ∧
      WritesOnly rd (s.pc + 8#32) s u ∧ SameMemory s u ∧ u.io = s.io ∧ SameOutside s u := by
  obtain ⟨hwrites, hpc, hmem, hio, houtside⟩ := hcomputes
  have htarget : jalrTarget rd (lowPart c) t = target := by
    refine BitVec.eq_of_toNat_eq ?_
    rw [jalrTarget, hwrites.x_self hrd, hsum, toNat_clear_bit0]
    omega
  obtain ⟨u, hexec, hwrites', hpc', hmem', hio', houtside'⟩ :=
    (exec_jumps (exec_jalr rd rd (lowPart c) t)).1 (htarget ▸ haligned)
  refine ⟨u, hexec, hpc'.trans htarget, ?_, hmem.trans hmem', hio'.trans hio, houtside.trans houtside'⟩
  have hlink : t.pc + 4#32 = s.pc + 8#32 := by rw [hpc, BitVec.add_assoc]; rfl
  exact hlink ▸ hwrites.trans hwrites'

/-! ## Signed bounds by an unsigned comparison -/

/-- Below a nonnegative bound, read as unsigned, is nonnegative and below it, read as signed. -/
theorem toNat_lt_iff_toInt_bounds {a b : Word} (h : 0 ≤ b.toInt) :
    a.toNat < b.toNat ↔ 0 ≤ a.toInt ∧ a.toInt < b.toInt := by
  have ha := a.isLt
  have hb := b.isLt
  rw [BitVec.toInt_eq_toNat_cond] at h ⊢
  rw [BitVec.toInt_eq_toNat_cond]
  split_ifs at h ⊢ <;> omega

/-! ## FENCE, FENCE.TSO, ECALL and EBREAK (R184, R190, R191) -/

theorem exec_fence (fm pred succ : BitVec 4) (rs1 rd : Reg) (s : State) :
    exec (.fence fm pred succ rs1 rd) s = advance s := rfl

theorem exec_fenceTso (rs1 rd : Reg) (s : State) : exec (.fenceTso rs1 rd) s = advance s := rfl

theorem exec_ecall (s : State) : exec .ecall s = takeTrap .environmentCall 0#32 s := rfl

theorem exec_ebreak (s : State) : exec .ebreak s = takeTrap .breakpoint s.pc s := rfl

/-- After an instruction that takes a trap the EE ends the run with its record or resumes the hart at the
image's pc. -/
theorem trap_then_reply {i : Instr} {c : Cause} {v : Word} {s : State}
    (h : exec i s = takeTrap c v s) :
    ∃ t, exec i s = .next t ∧ TrapTaken c v s t ∧
      (s.ee = [] → step t = .fault (.runEnded { cause := c, pc := s.pc, value := v })) ∧
      (∀ image rest, s.ee = image :: rest → ∃ u, step t = .next u ∧ u.pc = image.pc) := by
  obtain ⟨t, ht, htaken⟩ := takeTrap_trapTaken c v s
  have ⟨htrap, _, _, _, _, hee, _⟩ := htaken
  refine ⟨t, h.trans ht, htaken, fun hnone => ?_, fun image rest himages => ?_⟩
  · exact (step_of_trap htrap).trans (afterTrap_of_no_reply _ (hee.trans hnone))
  · exact ⟨_, (step_of_trap htrap).trans (afterTrap_of_reply _ (hee.trans himages)), rfl⟩

end Sys2Proof.Machine

/-! SUPPORT. The rule of each load and store, and a load of what was stored (R47): the rules of the two
meet at the bytes. -/

namespace Sys2Proof.Machine

/-! ## The rule of each load (R161 to R165) and store (R166 to R168) -/

theorem loads_lw : Claims.Loads 0x00002003#32 .lw 4 (fun _ => True) :=
  loads_of_row (name := "LW") (by simp [rows, rowsMemory]) (by decide) exec_lw le_rfl
    (fun _ _ _ => rfl) (fun _ => trivial)

theorem loads_lh : Claims.Loads 0x00001003#32 .lh 2 (fun v => v.toInt = (v.setWidth 16).toInt) :=
  loads_of_row (name := "LH") (by simp [rows, rowsMemory]) (by decide) exec_lh (by decide)
    (fun v _ _ => extractLsb'_signExtend_setWidth v (by omega) (by decide))
    (fun v => toInt_signExtend_setWidth v (by decide))

theorem loads_lhu : Claims.Loads 0x00005003#32 .lhu 2 (fun v => v.toNat < 2 ^ 16) :=
  loads_of_row (name := "LHU") (by simp [rows, rowsMemory]) (by decide) exec_lhu (by decide)
    (fun v _ _ => extractLsb'_setWidth_setWidth v (by omega) (by decide)) toNat_setWidth_setWidth_lt

theorem loads_lb : Claims.Loads 0x00000003#32 .lb 1 (fun v => v.toInt = (v.setWidth 8).toInt) :=
  loads_of_row (name := "LB") (by simp [rows, rowsMemory]) (by decide) exec_lb (by decide)
    (fun v _ _ => extractLsb'_signExtend_setWidth v (by omega) (by decide))
    (fun v => toInt_signExtend_setWidth v (by decide))

theorem loads_lbu : Claims.Loads 0x00004003#32 .lbu 1 (fun v => v.toNat < 2 ^ 8) :=
  loads_of_row (name := "LBU") (by simp [rows, rowsMemory]) (by decide) exec_lbu (by decide)
    (fun v _ _ => extractLsb'_setWidth_setWidth v (by omega) (by decide)) toNat_setWidth_setWidth_lt

theorem stores_sw : Claims.Stores 0x00002023#32 .sw 4 :=
  stores_of_row (name := "SW") (by simp [rows, rowsMemory]) (by decide) exec_sw le_rfl

theorem stores_sh : Claims.Stores 0x00001023#32 .sh 2 :=
  stores_of_row (name := "SH") (by simp [rows, rowsMemory]) (by decide) exec_sh (by decide)

theorem stores_sb : Claims.Stores 0x00000023#32 .sb 1 :=
  stores_of_row (name := "SB") (by simp [rows, rowsMemory]) (by decide) exec_sb (by decide)

/-! ## A load of what was stored -/

/-- Reading the same registers gives the same effective addresses. -/
theorem effectiveAddress_of_sameRegisters {s t : State} (h : SameRegisters s t) (rs1 : Reg)
    (imm : BitVec 12) : effectiveAddress rs1 imm t = effectiveAddress rs1 imm s := by
  rw [effectiveAddress, effectiveAddress, h.1]

/-- A load that extends `n` bytes with zeros returns what the store of the same width left there. -/
theorem loadAfterStore_of_rules {pst pld : Word} {st ld : Reg → Reg → BitVec 12 → Instr} {n : Nat}
    {extended : Word → Prop} (hst : Claims.Stores pst st n) (hld : Claims.Loads pld ld n extended)
    (hzeros : ∀ v, extended v → v.toNat < 2 ^ (8 * n)) (rs2 rs1 rd : Reg) (imm : BitVec 12) (s : State)
    (haligned : (effectiveAddress rs1 imm s).toNat % n = 0)
    (hstore : accessible s.cfg.memMap .store (effectiveAddress rs1 imm s) n = true)
    (hload : accessible s.cfg.memMap .load (effectiveAddress rs1 imm s) n = true)
    (hmain : touchesIo s.cfg.memMap (effectiveAddress rs1 imm s) n = false) :
    ∃ t u, exec (st rs2 rs1 imm) s = .next t ∧ exec (ld rd rs1 imm) t = .next u ∧
      WritesOnly rd (BitVec.ofNat 32 ((s.x rs2).toNat % 2 ^ (8 * n))) s u ∧ SameMemory t u := by
  rw [touchesIo_eq_false_iff] at hmain
  obtain ⟨-, -, hstored⟩ := hst.2 rs2 rs1 imm s
  obtain ⟨t, ht, hbytes, -, -, hregs, -, ⟨-, -, hcfg⟩, -⟩ := hstored (.inr haligned) hstore
  have haddress := effectiveAddress_of_sameRegisters hregs rs1 imm
  obtain ⟨-, -, hloaded⟩ := hld.2 rd rs1 imm t
  simp only [haddress, hcfg] at hloaded
  obtain ⟨u, v, hu, hwrites, hextended, hread, -, -, hmem, -, -⟩ := hloaded (.inr haligned) hload
  have hvalue : v = BitVec.ofNat 32 ((s.x rs2).toNat % 2 ^ (8 * n)) :=
    eq_ofNat_mod_of_bytes (e := s.cfg.endian) (hzeros v hextended) fun k hk => by
      rw [hread k hk (hmain k hk), hbytes k hk (hmain k hk)]
  exact ⟨t, u, ht, hu, hvalue ▸ hregs.writesOnly hwrites, hmem⟩

/-- LBU of a main-memory address reads the byte there. -/
theorem lbu_reads (rd rs1 : Reg) (imm : BitVec 12) (s : State)
    (hload : accessible s.cfg.memMap .load (effectiveAddress rs1 imm s) 1 = true)
    (hmain : kindAt s.cfg.memMap (effectiveAddress rs1 imm s) ≠ .io) :
    ∃ u, exec (.lbu rd rs1 imm) s = .next u ∧
      WritesOnly rd ((s.mem.read (effectiveAddress rs1 imm s).toNat).setWidth 32) s u := by
  obtain ⟨-, -, hloaded⟩ := loads_lbu.2 rd rs1 imm s
  obtain ⟨u, v, hu, hwrites, hlt, hread, -⟩ := hloaded (.inr (Nat.mod_one _)) hload
  have hbyte := hread 0 (by decide) (by simpa using hmain)
  simp only [byteOrder_one, Nat.mul_zero, BitVec.add_zero] at hbyte
  have hvalue : v = (s.mem.read (effectiveAddress rs1 imm s).toNat).setWidth 32 := by
    refine BitVec.eq_of_toNat_eq ?_
    rw [← hbyte, BitVec.toNat_setWidth, toNat_piece]
    omega
  exact ⟨u, hu, hvalue ▸ hwrites⟩

/-- So it does after a store that left the byte there, under any byte order. -/
theorem lbu_reads_after {s t : State} (hregs : SameRegisters s t) (hcfg : t.cfg = s.cfg) {base : Reg}
    {off : BitVec 12} {b : Byte} (hread : t.mem.read (effectiveAddress base off t).toNat = b)
    (hload : accessibleAt s.cfg.memMap .load (effectiveAddress base off t) = true)
    (hmain : kindAt s.cfg.memMap (effectiveAddress base off t) ≠ .io) (rd : Reg) (e : Endian) :
    ∃ u, exec (.lbu rd base off) (Claims.withEndian e t) = .next u ∧
      WritesOnly rd (b.setWidth 32) s u := by
  rw [← hcfg] at hload hmain
  have hload' : accessible t.cfg.memMap .load (effectiveAddress base off t) 1 = true :=
    accessible_iff.mpr fun k hk => by
      obtain rfl : k = 0 := by omega
      simpa using hload
  obtain ⟨u, hu, hwrites⟩ := lbu_reads rd base off (Claims.withEndian e t) hload' hmain
  exact ⟨u, hu, hregs.writesOnly (hread ▸ hwrites)⟩

end Sys2Proof.Machine

/-! The statements on constants, far jumps, JALR, bounds checks, fences and the requested traps. -/

namespace Sys2Proof.Proofs

open Sys2Proof.Machine

/-- Settles O40: the two parts add up to the constant, and of the two writes the second counts. -/
theorem luiAddiBuildsEveryConstant : Obligations.LuiAddiBuildsEveryConstant := by
  intro c rd s
  refine ⟨toNat_highPart c, ?_⟩
  obtain ⟨t, ht, hwrites, hpc, hmem, hio, houtside⟩ := exec_computes (exec_lui rd (highPart c) s)
  obtain ⟨u, hu, hwrites', hpc', hmem', hio', houtside'⟩ := exec_computes (exec_addi rd rd (lowPart c) t)
  refine ⟨t, u, ht, hu, (hwrites.trans hwrites').congr fun hrd => ?_, ?_, hmem.trans hmem',
    hio'.trans hio, houtside.trans houtside'⟩
  · rw [hwrites.x_self hrd, immUpper_highPart_add]
  · rw [hpc', hpc, BitVec.add_assoc]
    rfl

/-- Settles O42: JALR is a linking transfer to the sum with bit 0 cleared. -/
theorem jalrJumpsAndLinks : Obligations.JalrJumpsAndLinks := by
  refine ⟨namesWords_of_mem (r := rowI "JALR" 0x00000067#32 .jalr) (by simp [rows, rowsUpperAndJump])
    (by decide), fun rd rs1 imm s => ?_⟩
  simp only [← jalrTarget_eq]
  exact exec_jumps (exec_jalr rd rs1 imm s)

/-- Settles O43: after LUI or AUIPC of the high part the JALR adds the low part. -/
theorem farJumpsReachEveryTarget : Obligations.FarJumpsReachEveryTarget := by
  intro rd c s hrd
  refine ⟨fun haligned => ?_, fun haligned => ?_⟩
  · obtain ⟨t, ht, hcomputes⟩ := exec_computes (exec_lui rd (highPart c) s)
    obtain ⟨u, hu⟩ := jalr_reaches hrd hcomputes (immUpper_highPart_add c) haligned
    exact ⟨t, u, ht, hu⟩
  · obtain ⟨t, ht, hcomputes⟩ := exec_computes (exec_auipc rd (highPart c) s)
    have hsum : s.pc + immUpper (highPart c) + imm12 (lowPart c) = s.pc + c := by
      rw [BitVec.add_assoc, immUpper_highPart_add]
    obtain ⟨u, hu⟩ := jalr_reaches hrd hcomputes hsum haligned
    exact ⟨t, u, ht, hu⟩

/-- Settles O47: BLTU's rule, with its condition as signed bounds. -/
theorem bltuChecksBounds : Obligations.BltuChecksBounds := by
  intro rs1 rs2 imm s target hbound haligned
  obtain ⟨⟨-, hbltu⟩, -⟩ := unsignedBranches
  obtain ⟨htaken, -, hnot⟩ := hbltu rs1 rs2 imm s
  have hcond := toNat_lt_iff_toInt_bounds (a := s.x rs1) hbound
  split_ifs with hinside
  · exact htaken (hcond.mpr hinside) haligned
  · exact hnot (mt hcond.mp hinside)

/-- Settles O55: FENCE.TSO's row comes first, FENCE's is left; both instructions are an advance. -/
theorem fencesOnlyAdvancePc : Obligations.FencesOnlyAdvancePc := by
  refine ⟨fun w hw => ?_, fun rs1 rd s => ?_, fun fm pred succ rs1 rd s => ?_⟩
  · have hfence : rowFence.hits w = true := (rowFence.hits_iff w).mpr hw
    split_ifs with htso
    · exact decode_of_tso_hits ((rowFenceTso.hits_iff w).mpr htso)
    · exact decode_of_hits_of_not_tso rowFence_mem (mt (rowFenceTso.hits_iff w).mp htso) hfence
  · exact ⟨_, (exec_fenceTso rs1 rd s).trans (advance_eq s), continues_advance s⟩
  · exact ⟨_, (exec_fence fm pred succ rs1 rd s).trans (advance_eq s), continues_advance s⟩

/-- Settles O56: ECALL takes its trap, and the EE answers it. -/
theorem ecallRaisesEnvironmentCall : Obligations.EcallRaisesEnvironmentCall := by
  refine ⟨namesWords_of_mem (r := ⟨"ECALL", 0xFFFFFFFF#32, 0x00000073#32, fun _ => .ecall⟩)
    (by simp [rows, rowsFenceAndSystem]) (by decide), fun s => ?_⟩
  obtain ⟨t, ht, htaken, hended, hresumed⟩ := trap_then_reply (exec_ecall s)
  exact ⟨t, ht, htaken, rfl, hended, hresumed⟩

/-- Settles O57: EBREAK takes its trap, and the EE answers it. -/
theorem ebreakRaisesBreakpoint : Obligations.EbreakRaisesBreakpoint := by
  refine ⟨namesWords_of_mem (r := ⟨"EBREAK", 0xFFFFFFFF#32, 0x00100073#32, fun _ => .ebreak⟩)
    (by simp [rows, rowsFenceAndSystem]) (by decide), fun s => ?_⟩
  obtain ⟨t, ht, htaken, hended, hresumed⟩ := trap_then_reply (exec_ebreak s)
  exact ⟨t, ht, htaken, rfl, hended, hresumed⟩

/-! ## Loads and stores -/

/-- Settles O48: the rule of the loads for the four bytes that fill the register. -/
theorem loadWord : Obligations.LoadWord := ⟨loads_lw, trapsMisaligned_of_load exec_lw⟩

/-- Settles O49: the rule of the loads for two bytes, extended from bit 15. -/
theorem loadHalfwords : Obligations.LoadHalfwords :=
  ⟨loads_lh, loads_lhu, trapsMisaligned_of_load exec_lh, trapsMisaligned_of_load exec_lhu⟩

/-- Settles O50: the rule of the loads for one byte, extended from bit 7. -/
theorem loadBytes : Obligations.LoadBytes := ⟨loads_lb, loads_lbu⟩

/-- Settles O51: the rule of the stores for four bytes. -/
theorem storeWord : Obligations.StoreWord := ⟨stores_sw, trapsMisaligned_of_store exec_sw⟩

/-- Settles O52: the rule of the stores for two bytes and for one. -/
theorem storeHalfwordAndByte : Obligations.StoreHalfwordAndByte :=
  ⟨stores_sh, stores_sb, trapsMisaligned_of_store exec_sh⟩

/-- Settles O53: the rules of the store and of the load of each width meet at its bytes. -/
theorem loadAfterStore : Obligations.LoadAfterStore := by
  rintro n st ld (⟨rfl, rfl, rfl⟩ | ⟨rfl, rfl, rfl⟩ | ⟨rfl, rfl, rfl⟩)
  · exact loadAfterStore_of_rules stores_sw loads_lw fun v _ => v.isLt
  · exact loadAfterStore_of_rules stores_sh loads_lhu fun _ h => h
  · exact loadAfterStore_of_rules stores_sb loads_lbu fun _ h => h

/-- Settles O54: the store's rule says which byte lies at each address, and LBU reads the byte at its
address. -/
theorem byteAddressInvariance : Obligations.ByteAddressInvariance := by
  intro rs2 rs1 imm s
  refine ⟨fun hstore hload hmain => ?_, fun haligned hstore hload hmain => ?_⟩
  · rw [touchesIo_eq_false_iff] at hmain
    rw [accessible_iff] at hload
    obtain ⟨-, -, hstored⟩ := stores_sb.2 rs2 rs1 imm s
    obtain ⟨t, ht, hbytes, -, -, hregs, -, ⟨-, -, hcfg⟩, -⟩ := hstored (.inr (Nat.mod_one _)) hstore
    have haddress := effectiveAddress_of_sameRegisters hregs rs1 imm
    have hbyte := hbytes 0 (by decide) (hmain 0 (by decide))
    have hload0 := hload 0 (by decide)
    have hmain0 := hmain 0 (by decide)
    simp only [byteOrder_one, Nat.mul_zero, BitVec.add_zero, ← haddress] at hbyte hload0 hmain0
    have hvalue : ((s.x rs2).extractLsb' 0 8).setWidth 32 = BitVec.ofNat 32 ((s.x rs2).toNat % 2 ^ 8) := by
      refine BitVec.eq_of_toNat_eq ?_
      rw [BitVec.toNat_setWidth, toNat_piece, BitVec.toNat_ofNat, Nat.pow_zero, Nat.div_one]
    exact ⟨t, ht, fun rd e => hvalue ▸ lbu_reads_after hregs hcfg hbyte hload0 hmain0 rd e⟩
  · rw [touchesIo_eq_false_iff] at hmain
    rw [accessible_iff] at hload
    obtain ⟨-, -, hstored⟩ := stores_sw.2 rs2 rs1 imm s
    obtain ⟨t, ht, hbytes, -, -, hregs, -, ⟨-, -, hcfg⟩, -⟩ := hstored (.inr haligned) hstore
    refine ⟨t, ht, fun rd base off e k hk haddress => ?_⟩
    have hbyte := hbytes k hk (hmain k hk)
    have hloadk := hload k hk
    have hmaink := hmain k hk
    rw [← haddress] at hbyte hloadk hmaink
    exact lbu_reads_after hregs hcfg hbyte hloadk hmaink rd e

end Sys2Proof.Proofs
